-- ==== Sys2Proof/Word.lean ====
section
/-! DEFINITION. The widths of the CHIP-8 interpreter core (00_scope.md rule R5): a byte, a 16-bit instruction
word or register, a register index and a 12-bit address field. -/

namespace Sys2Proof

/-- A memory byte, a `V` register, a timer (R5 `REG_WIDTH`, `TIMER_WIDTH`). -/
abbrev Byte := BitVec 8

/-- An instruction word, `I`, `pc`, a stack cell (R5 `I_WIDTH`, `PC_WIDTH`, R60). -/
abbrev Word := BitVec 16

/-- A 4-bit field: a register index `x`, `y`, a row count `n`, a key number (R61). -/
abbrev Nibble := BitVec 4

/-- The 12-bit address field `nnn` (R61). -/
abbrev Addr := BitVec 12

end Sys2Proof
end

