-- ==== Sys2Proof/Config.lean ====
section
/-! DEFINITION. What is fixed when the core is created (the straps of R6 and the parameters of R7), the fixed sizes of
R5, and the one free value: the byte of the random source (R26). -/

namespace Sys2Proof

/-- `MEM_SIZE`: the memory holds 4096 bytes (R5). -/
abbrev memSize : Nat := 4096

/-- `FONT_BASE`: the font table starts at 0x050 (R5). -/
abbrev fontBase : Nat := 0x050

/-- `PROG_BASE`: programs start at 0x200 (R5). -/
abbrev progBase : Nat := 0x200

/-- The three configuration straps of R6, fixed at creation (R27). -/
structure Quirks where
  /-- `shift_uses_vy`: SHR and SHL shift `V[y]` when true, `V[x]` when false. -/
  shiftUsesVy : Bool
  /-- `mem_ops_increment_i`: Fx55 and Fx65 advance `I` by x + 1 when true. -/
  memOpsIncrementI : Bool
  /-- `jump_with_offset_uses_vx0`: Bnnn adds `V[x]` when true, `V[0]` when false. -/
  jumpWithOffsetUsesVx0 : Bool
deriving DecidableEq, Repr

/-- The parameter `KEYWAIT_ADVANCE` of R7 takes one of two values. -/
inductive KeywaitAdvance where
  /-- 0: what the source document states (R163, D13). -/
  | zero
  /-- 2: the alternative the spec keeps (R163, D13). -/
  | two
deriving DecidableEq, Repr

/-- `FONT[0..79]`: the 80 bytes of the font table, glyph g the five bytes from 5g (R7, R21). -/
abbrev Font := Vector Byte 80

/-- The parameters of R7 that a claim may quantify over; constant after creation. -/
structure Params where
  /-- `KEYWAIT_ADVANCE`: what a resolving `key_down` adds to `pc` (R85). -/
  keywaitAdvance : KeywaitAdvance
  /-- `HAS_8XY0`: whether 8xy0 is LD Vx, Vy or the undecoded no-op (R122). -/
  has8xy0 : Bool
  /-- `FONT`: what `create` and `reset` put at 0x050..0x09F (R21). -/
  font : Font
deriving DecidableEq, Repr

/-- FREE VALUE: the byte of the k-th sample of the random source (R7 `Rng()`, R26, D19). It has no body, so no claim can
rest on what it is (assumption log 3). -/
opaque Config.randomByte : Nat → Byte

end Sys2Proof
end

