-- ==== Sys2Proof/Syntax.lean ====
section
/-! DEFINITION. The instructions: one constructor per row of spec/opcode_table.json, in the table's order, carrying every
field of its row. A nibble that the row's meaning ignores (R65, R69) is carried too, so that no bit of a word is dropped. -/

namespace Sys2Proof

/-- The 35 instructions of R74. The undecoded no-op of R70 is no row of the table and no constructor here: the decoder
answers it by name (`Undecoded`). -/
inductive Instr where
  /-- CLS (R150); `x` is ignored (R65). -/
  | cls (x : Nibble)
  /-- RET (R101); `x` is ignored (R65). -/
  | ret (x : Nibble)
  /-- SYS nnn (R100), the no-op of family 0. -/
  | sys (nnn : Addr)
  /-- JP nnn (R102). -/
  | jp (nnn : Addr)
  /-- CALL nnn (R103). -/
  | call (nnn : Addr)
  /-- SE Vx, kk (R104). -/
  | seImm (x : Nibble) (kk : Byte)
  /-- SNE Vx, kk (R105). -/
  | sneImm (x : Nibble) (kk : Byte)
  /-- SE Vx, Vy (R106); `n` is ignored (R69). -/
  | seReg (x y n : Nibble)
  /-- LD Vx, kk (R120). -/
  | ldImm (x : Nibble) (kk : Byte)
  /-- ADD Vx, kk (R121). -/
  | addImm (x : Nibble) (kk : Byte)
  /-- LD Vx, Vy (R122). -/
  | ldReg (x y : Nibble)
  /-- OR Vx, Vy (R123). -/
  | orReg (x y : Nibble)
  /-- AND Vx, Vy (R124). -/
  | andReg (x y : Nibble)
  /-- XOR Vx, Vy (R125). -/
  | xorReg (x y : Nibble)
  /-- ADD Vx, Vy (R126). -/
  | addReg (x y : Nibble)
  /-- SUB Vx, Vy (R127). -/
  | subReg (x y : Nibble)
  /-- SHR Vx, Vy (R130). -/
  | shrReg (x y : Nibble)
  /-- SUBN Vx, Vy (R131). -/
  | subnReg (x y : Nibble)
  /-- SHL Vx, Vy (R132). -/
  | shlReg (x y : Nibble)
  /-- SNE Vx, Vy (R107); `n` is ignored (R69). -/
  | sneReg (x y n : Nibble)
  /-- LD I, nnn (R140). -/
  | ldI (nnn : Addr)
  /-- JP V0, nnn (R109); its register field `x` is the top nibble of `nnn`. -/
  | jpV0 (nnn : Addr)
  /-- RND Vx, kk (R133). -/
  | rnd (x : Nibble) (kk : Byte)
  /-- DRW Vx, Vy, n (R151). -/
  | drw (x y n : Nibble)
  /-- SKP Vx (R160). -/
  | skp (x : Nibble)
  /-- SKNP Vx (R161). -/
  | sknp (x : Nibble)
  /-- LD Vx, DT (R162). -/
  | ldVxDT (x : Nibble)
  /-- LD Vx, K (R163). -/
  | ldVxK (x : Nibble)
  /-- LD DT, Vx (R164). -/
  | ldDTVx (x : Nibble)
  /-- LD ST, Vx (R165). -/
  | ldSTVx (x : Nibble)
  /-- ADD I, Vx (R141). -/
  | addIVx (x : Nibble)
  /-- LD F, Vx (R142). -/
  | ldFVx (x : Nibble)
  /-- LD B, Vx (R143). -/
  | ldBVx (x : Nibble)
  /-- LD [I], Vx (R144). -/
  | ldMemVx (x : Nibble)
  /-- LD Vx, [I] (R145). -/
  | ldVxMem (x : Nibble)
deriving DecidableEq, Repr

end Sys2Proof
end

