-- ==== Sys2Proof/Decode.lean ====
section
/-! DEFINITION. Decoding (30_encoding.md rules R60 to R71): total on every 16-bit word; a word that matches no row of the
opcode table is answered by the name of its space (R71). After it the encoder, the row of the table each instruction belongs to,
and one word per constructor written out from the spec's encoding. -/

namespace Sys2Proof

/-- The words that match no row of the opcode table (R71), by family; each executes as the undecoded no-op (R70). -/
inductive Undecoded where
  /-- Family 8 with n in 0x8..0xD or 0xF (R66). -/
  | family8
  /-- Family E with kk other than 0x9E and 0xA1 (R67). -/
  | familyE
  /-- Family F with kk none of the nine codes of R68. -/
  | familyF
deriving DecidableEq, Repr

/-- `hi = op[15:12]` (R61). -/
def fieldHi (w : Word) : Nibble := w.extractLsb' 12 4

/-- `x = op[11:8]` (R61). -/
def fieldX (w : Word) : Nibble := w.extractLsb' 8 4

/-- `y = op[7:4]` (R61). -/
def fieldY (w : Word) : Nibble := w.extractLsb' 4 4

/-- `n = op[3:0]` (R61). -/
def fieldN (w : Word) : Nibble := w.extractLsb' 0 4

/-- `kk = op[7:0]` (R61). -/
def fieldKK (w : Word) : Byte := w.extractLsb' 0 8

/-- `nnn = op[11:0]` (R61). -/
def fieldNNN (w : Word) : Addr := w.extractLsb' 0 12

/-- Family 0 dispatches on kk alone (R65, D8). -/
def decodeFamily0 (w : Word) : Instr :=
  if fieldKK w = 0xE0#8 then .cls (fieldX w)
  else if fieldKK w = 0xEE#8 then .ret (fieldX w)
  else .sys (fieldNNN w)

/-- Family 8 dispatches on n (R66). -/
def decodeFamily8 (w : Word) : Except Undecoded Instr :=
  if fieldN w = 0x0#4 then .ok (.ldReg (fieldX w) (fieldY w))
  else if fieldN w = 0x1#4 then .ok (.orReg (fieldX w) (fieldY w))
  else if fieldN w = 0x2#4 then .ok (.andReg (fieldX w) (fieldY w))
  else if fieldN w = 0x3#4 then .ok (.xorReg (fieldX w) (fieldY w))
  else if fieldN w = 0x4#4 then .ok (.addReg (fieldX w) (fieldY w))
  else if fieldN w = 0x5#4 then .ok (.subReg (fieldX w) (fieldY w))
  else if fieldN w = 0x6#4 then .ok (.shrReg (fieldX w) (fieldY w))
  else if fieldN w = 0x7#4 then .ok (.subnReg (fieldX w) (fieldY w))
  else if fieldN w = 0xE#4 then .ok (.shlReg (fieldX w) (fieldY w))
  else .error .family8

/-- Family E dispatches on kk (R67). -/
def decodeFamilyE (w : Word) : Except Undecoded Instr :=
  if fieldKK w = 0x9E#8 then .ok (.skp (fieldX w))
  else if fieldKK w = 0xA1#8 then .ok (.sknp (fieldX w))
  else .error .familyE

/-- Family F dispatches on kk (R68). -/
def decodeFamilyF (w : Word) : Except Undecoded Instr :=
  if fieldKK w = 0x07#8 then .ok (.ldVxDT (fieldX w))
  else if fieldKK w = 0x0A#8 then .ok (.ldVxK (fieldX w))
  else if fieldKK w = 0x15#8 then .ok (.ldDTVx (fieldX w))
  else if fieldKK w = 0x18#8 then .ok (.ldSTVx (fieldX w))
  else if fieldKK w = 0x1E#8 then .ok (.addIVx (fieldX w))
  else if fieldKK w = 0x29#8 then .ok (.ldFVx (fieldX w))
  else if fieldKK w = 0x33#8 then .ok (.ldBVx (fieldX w))
  else if fieldKK w = 0x55#8 then .ok (.ldMemVx (fieldX w))
  else if fieldKK w = 0x65#8 then .ok (.ldVxMem (fieldX w))
  else .error .familyF

/-- The decoder: the total dispatch of R64 over the high nibble. -/
def decodeWord (w : Word) : Except Undecoded Instr :=
  if fieldHi w = 0x0#4 then .ok (decodeFamily0 w)
  else if fieldHi w = 0x1#4 then .ok (.jp (fieldNNN w))
  else if fieldHi w = 0x2#4 then .ok (.call (fieldNNN w))
  else if fieldHi w = 0x3#4 then .ok (.seImm (fieldX w) (fieldKK w))
  else if fieldHi w = 0x4#4 then .ok (.sneImm (fieldX w) (fieldKK w))
  else if fieldHi w = 0x5#4 then .ok (.seReg (fieldX w) (fieldY w) (fieldN w))
  else if fieldHi w = 0x6#4 then .ok (.ldImm (fieldX w) (fieldKK w))
  else if fieldHi w = 0x7#4 then .ok (.addImm (fieldX w) (fieldKK w))
  else if fieldHi w = 0x8#4 then decodeFamily8 w
  else if fieldHi w = 0x9#4 then .ok (.sneReg (fieldX w) (fieldY w) (fieldN w))
  else if fieldHi w = 0xA#4 then .ok (.ldI (fieldNNN w))
  else if fieldHi w = 0xB#4 then .ok (.jpV0 (fieldNNN w))
  else if fieldHi w = 0xC#4 then .ok (.rnd (fieldX w) (fieldKK w))
  else if fieldHi w = 0xD#4 then .ok (.drw (fieldX w) (fieldY w) (fieldN w))
  else if fieldHi w = 0xE#4 then decodeFamilyE w
  else decodeFamilyF w

/-- An instruction's word from its two bytes, the byte at the lower address first and highest (R41, R60). -/
def wordOfBytes (hi lo : Byte) : Word := hi ++ lo

/-- The byte of a word that lies at the lower address: bits 15..8 (R41). -/
def highByte (w : Word) : Byte := w.extractLsb' 8 8

/-- The byte of a word that lies at the higher address: bits 7..0 (R41). -/
def lowByte (w : Word) : Byte := w.extractLsb' 0 8

/-- Decode an instruction from the two bytes that hold it. -/
def decode (hi lo : Byte) : Except Undecoded Instr := decodeWord (wordOfBytes hi lo)

/-- The instruction the decoder reads from a table row's word: the word laid out big-endian, and read back (R41, R60). -/
def decodeTableWord (nbits w : Nat) : Option Instr :=
  match decode (highByte (BitVec.ofNat 16 (w % 2 ^ nbits))) (lowByte (BitVec.ofNat 16 (w % 2 ^ nbits))) with
  | .ok i => some i
  | .error _ => none

/-- Format A of R62: `hi`, `nnn`. -/
def formatA (hi : Nibble) (nnn : Addr) : Word := hi ++ nnn

/-- Formats I, X and Z of R62: `hi`, `x`, and a byte that is an immediate or a sub-opcode. -/
def formatI (hi x : Nibble) (kk : Byte) : Word := hi ++ x ++ kk

/-- Formats R and D of R62: `hi`, `x`, `y`, and a nibble that is a sub-opcode, a row count or ignored. -/
def formatR (hi x y n : Nibble) : Word := hi ++ x ++ y ++ n

/-- The word of an instruction, from the encodings of R62, R65 to R69 and R72. -/
def encode : Instr → Word
  | .cls x => formatI 0x0 x 0xE0
  | .ret x => formatI 0x0 x 0xEE
  | .sys nnn => formatA 0x0 nnn
  | .jp nnn => formatA 0x1 nnn
  | .call nnn => formatA 0x2 nnn
  | .seImm x kk => formatI 0x3 x kk
  | .sneImm x kk => formatI 0x4 x kk
  | .seReg x y n => formatR 0x5 x y n
  | .ldImm x kk => formatI 0x6 x kk
  | .addImm x kk => formatI 0x7 x kk
  | .ldReg x y => formatR 0x8 x y 0x0
  | .orReg x y => formatR 0x8 x y 0x1
  | .andReg x y => formatR 0x8 x y 0x2
  | .xorReg x y => formatR 0x8 x y 0x3
  | .addReg x y => formatR 0x8 x y 0x4
  | .subReg x y => formatR 0x8 x y 0x5
  | .shrReg x y => formatR 0x8 x y 0x6
  | .subnReg x y => formatR 0x8 x y 0x7
  | .shlReg x y => formatR 0x8 x y 0xE
  | .sneReg x y n => formatR 0x9 x y n
  | .ldI nnn => formatA 0xA nnn
  | .jpV0 nnn => formatA 0xB nnn
  | .rnd x kk => formatI 0xC x kk
  | .drw x y n => formatR 0xD x y n
  | .skp x => formatI 0xE x 0x9E
  | .sknp x => formatI 0xE x 0xA1
  | .ldVxDT x => formatI 0xF x 0x07
  | .ldVxK x => formatI 0xF x 0x0A
  | .ldDTVx x => formatI 0xF x 0x15
  | .ldSTVx x => formatI 0xF x 0x18
  | .addIVx x => formatI 0xF x 0x1E
  | .ldFVx x => formatI 0xF x 0x29
  | .ldBVx x => formatI 0xF x 0x33
  | .ldMemVx x => formatI 0xF x 0x55
  | .ldVxMem x => formatI 0xF x 0x65

/-- The mask of an instruction's row in the opcode table: the bits its encoding fixes. -/
def rowMask : Instr → Word
  | .cls _ | .ret _ | .skp _ | .sknp _ | .ldVxDT _ | .ldVxK _ | .ldDTVx _ | .ldSTVx _ | .addIVx _ | .ldFVx _
  | .ldBVx _ | .ldMemVx _ | .ldVxMem _ => 0xF0FF#16
  | .sys _ | .jp _ | .call _ | .seImm _ _ | .sneImm _ _ | .seReg _ _ _ | .ldImm _ _ | .addImm _ _
  | .sneReg _ _ _ | .ldI _ | .jpV0 _ | .rnd _ _ | .drw _ _ _ => 0xF000#16
  | .ldReg _ _ | .orReg _ _ | .andReg _ _ | .xorReg _ _ | .addReg _ _ | .subReg _ _ | .shrReg _ _ | .subnReg _ _
  | .shlReg _ _ => 0xF00F#16

/-- The match value of an instruction's row in the opcode table. -/
def rowMatch : Instr → Word
  | .cls _ => 0x00E0#16
  | .ret _ => 0x00EE#16
  | .sys _ => 0x0000#16
  | .jp _ => 0x1000#16
  | .call _ => 0x2000#16
  | .seImm _ _ => 0x3000#16
  | .sneImm _ _ => 0x4000#16
  | .seReg _ _ _ => 0x5000#16
  | .ldImm _ _ => 0x6000#16
  | .addImm _ _ => 0x7000#16
  | .ldReg _ _ => 0x8000#16
  | .orReg _ _ => 0x8001#16
  | .andReg _ _ => 0x8002#16
  | .xorReg _ _ => 0x8003#16
  | .addReg _ _ => 0x8004#16
  | .subReg _ _ => 0x8005#16
  | .shrReg _ _ => 0x8006#16
  | .subnReg _ _ => 0x8007#16
  | .shlReg _ _ => 0x800E#16
  | .sneReg _ _ _ => 0x9000#16
  | .ldI _ => 0xA000#16
  | .jpV0 _ => 0xB000#16
  | .rnd _ _ => 0xC000#16
  | .drw _ _ _ => 0xD000#16
  | .skp _ => 0xE09E#16
  | .sknp _ => 0xE0A1#16
  | .ldVxDT _ => 0xF007#16
  | .ldVxK _ => 0xF00A#16
  | .ldDTVx _ => 0xF015#16
  | .ldSTVx _ => 0xF018#16
  | .addIVx _ => 0xF01E#16
  | .ldFVx _ => 0xF029#16
  | .ldBVx _ => 0xF033#16
  | .ldMemVx _ => 0xF055#16
  | .ldVxMem _ => 0xF065#16

/-! One word per constructor, written out bit by bit from the spec's encoding (R62, R65 to R69, R72). -/

theorem decodeWord_cls_word : decodeWord (BitVec.ofNat 16 0b0000_0000_1110_0000) = .ok (.cls 0x0) := by decide
theorem decodeWord_ret_word : decodeWord (BitVec.ofNat 16 0b0000_0111_1110_1110) = .ok (.ret 0x7) := by decide
theorem decodeWord_sys_word : decodeWord (BitVec.ofNat 16 0b0000_0001_0010_0011) = .ok (.sys 0x123) := by decide
theorem decodeWord_jp_word : decodeWord (BitVec.ofNat 16 0b0001_1010_1011_1100) = .ok (.jp 0xABC) := by decide
theorem decodeWord_call_word : decodeWord (BitVec.ofNat 16 0b0010_0011_0000_0001) = .ok (.call 0x301) := by decide
theorem decodeWord_seImm_word : decodeWord (BitVec.ofNat 16 0b0011_0010_0100_0101) = .ok (.seImm 0x2 0x45) := by decide
theorem decodeWord_sneImm_word : decodeWord (BitVec.ofNat 16 0b0100_1111_1000_0000) = .ok (.sneImm 0xF 0x80) := by decide
theorem decodeWord_seReg_word : decodeWord (BitVec.ofNat 16 0b0101_1010_1011_0001) = .ok (.seReg 0xA 0xB 0x1) := by decide
theorem decodeWord_ldImm_word : decodeWord (BitVec.ofNat 16 0b0110_1010_0100_0010) = .ok (.ldImm 0xA 0x42) := by decide
theorem decodeWord_addImm_word : decodeWord (BitVec.ofNat 16 0b0111_0001_1100_1000) = .ok (.addImm 0x1 0xC8) := by decide
theorem decodeWord_ldReg_word : decodeWord (BitVec.ofNat 16 0b1000_0010_0011_0000) = .ok (.ldReg 0x2 0x3) := by decide
theorem decodeWord_orReg_word : decodeWord (BitVec.ofNat 16 0b1000_0001_0010_0001) = .ok (.orReg 0x1 0x2) := by decide
theorem decodeWord_andReg_word : decodeWord (BitVec.ofNat 16 0b1000_1111_0011_0010) = .ok (.andReg 0xF 0x3) := by decide
theorem decodeWord_xorReg_word : decodeWord (BitVec.ofNat 16 0b1000_0100_0111_0011) = .ok (.xorReg 0x4 0x7) := by decide
theorem decodeWord_addReg_word : decodeWord (BitVec.ofNat 16 0b1000_0001_1111_0100) = .ok (.addReg 0x1 0xF) := by decide
theorem decodeWord_subReg_word : decodeWord (BitVec.ofNat 16 0b1000_1100_1001_0101) = .ok (.subReg 0xC 0x9) := by decide
theorem decodeWord_shrReg_word : decodeWord (BitVec.ofNat 16 0b1000_0001_0010_0110) = .ok (.shrReg 0x1 0x2) := by decide
theorem decodeWord_subnReg_word : decodeWord (BitVec.ofNat 16 0b1000_1101_0011_0111) = .ok (.subnReg 0xD 0x3) := by decide
theorem decodeWord_shlReg_word : decodeWord (BitVec.ofNat 16 0b1000_1011_0110_1110) = .ok (.shlReg 0xB 0x6) := by decide
theorem decodeWord_sneReg_word : decodeWord (BitVec.ofNat 16 0b1001_1010_1011_1111) = .ok (.sneReg 0xA 0xB 0xF) := by decide
theorem decodeWord_ldI_word : decodeWord (BitVec.ofNat 16 0b1010_0010_1111_0000) = .ok (.ldI 0x2F0) := by decide
theorem decodeWord_jpV0_word : decodeWord (BitVec.ofNat 16 0b1011_0011_0000_1001) = .ok (.jpV0 0x309) := by decide
theorem decodeWord_rnd_word : decodeWord (BitVec.ofNat 16 0b1100_0011_0000_1111) = .ok (.rnd 0x3 0x0F) := by decide
theorem decodeWord_drw_word : decodeWord (BitVec.ofNat 16 0b1101_0111_1010_0101) = .ok (.drw 0x7 0xA 0x5) := by decide
theorem decodeWord_skp_word : decodeWord (BitVec.ofNat 16 0b1110_0010_1001_1110) = .ok (.skp 0x2) := by decide
theorem decodeWord_sknp_word : decodeWord (BitVec.ofNat 16 0b1110_1011_1010_0001) = .ok (.sknp 0xB) := by decide
theorem decodeWord_ldVxDT_word : decodeWord (BitVec.ofNat 16 0b1111_0011_0000_0111) = .ok (.ldVxDT 0x3) := by decide
theorem decodeWord_ldVxK_word : decodeWord (BitVec.ofNat 16 0b1111_0101_0000_1010) = .ok (.ldVxK 0x5) := by decide
theorem decodeWord_ldDTVx_word : decodeWord (BitVec.ofNat 16 0b1111_1010_0001_0101) = .ok (.ldDTVx 0xA) := by decide
theorem decodeWord_ldSTVx_word : decodeWord (BitVec.ofNat 16 0b1111_0110_0001_1000) = .ok (.ldSTVx 0x6) := by decide
theorem decodeWord_addIVx_word : decodeWord (BitVec.ofNat 16 0b1111_0010_0001_1110) = .ok (.addIVx 0x2) := by decide
theorem decodeWord_ldFVx_word : decodeWord (BitVec.ofNat 16 0b1111_0100_0010_1001) = .ok (.ldFVx 0x4) := by decide
theorem decodeWord_ldBVx_word : decodeWord (BitVec.ofNat 16 0b1111_1001_0011_0011) = .ok (.ldBVx 0x9) := by decide
theorem decodeWord_ldMemVx_word : decodeWord (BitVec.ofNat 16 0b1111_0011_0101_0101) = .ok (.ldMemVx 0x3) := by decide
theorem decodeWord_ldVxMem_word : decodeWord (BitVec.ofNat 16 0b1111_1100_0110_0101) = .ok (.ldVxMem 0xC) := by decide

end Sys2Proof
end

