-- ==== Sys2Proof/Machine/Params.lean ====
section
/-! DEFINITION. The values this hardware gives its straps and parameters at creation (R6, R7), and what memory holds when
nothing has written it: the parameter `FONT` and zeros (R20, R21, R28). -/

namespace Sys2Proof.Machine

/-- The straps' defaults: "`shift_uses_vy=false`, `mem_ops_increment_i=true`, `jump_with_offset_uses_vx0=false`" (R6). -/
def defaultQuirks : Quirks :=
  { shiftUsesVy := false, memOpsIncrementI := true, jumpWithOffsetUsesVx0 := false }

/-- `RNG_PRESENT` at `State.reset`. DESIGN CHOICE: the spec says "as supplied" (R28); with a source every byte is possible
(assumption log 2). -/
def defaultRngPresent : Bool := true

/-- The table of R21, glyph by glyph. PRESUMED: the spec marks the bytes as general knowledge (assumption log 1). -/
def fontBytes : List Byte :=
  [0xF0, 0x90, 0x90, 0x90, 0xF0] ++ [0x20, 0x60, 0x20, 0x20, 0x70] ++
  [0xF0, 0x10, 0xF0, 0x80, 0xF0] ++ [0xF0, 0x10, 0xF0, 0x10, 0xF0] ++
  [0x90, 0x90, 0xF0, 0x10, 0x10] ++ [0xF0, 0x80, 0xF0, 0x10, 0xF0] ++
  [0xF0, 0x80, 0xF0, 0x90, 0xF0] ++ [0xF0, 0x10, 0x20, 0x40, 0x40] ++
  [0xF0, 0x90, 0xF0, 0x90, 0xF0] ++ [0xF0, 0x90, 0xF0, 0x10, 0xF0] ++
  [0xF0, 0x90, 0xF0, 0x90, 0x90] ++ [0xE0, 0x90, 0xE0, 0x90, 0xE0] ++
  [0xF0, 0x80, 0x80, 0x80, 0xF0] ++ [0xE0, 0x90, 0x90, 0x90, 0xE0] ++
  [0xF0, 0x80, 0xF0, 0x80, 0xF0] ++ [0xF0, 0x80, 0xF0, 0x80, 0x80]

/-- The value of `FONT` for this hardware (R21, D9); a claim that does not name it holds for every `FONT`. -/
def defaultFont : Font := ⟨fontBytes.toArray, rfl⟩

/-- `KEYWAIT_ADVANCE` is 0 and `HAS_8XY0` is true on this hardware (R7), and `FONT` is the table of R21. -/
def defaultParams : Params := { keywaitAdvance := .zero, has8xy0 := true, font := defaultFont }

/-- What an address that memory does not list reads as, for the parameter `FONT`: the contents after `create` and `reset`,
`FONT` at 0x050..0x09F and 0 elsewhere (R20, R28). -/
def initialByte (f : Font) (a : Nat) : Byte :=
  if h : 0x050 ≤ a ∧ a < 0x050 + 80 then f[a - 0x050]'(by omega) else 0

end Sys2Proof.Machine
end

