-- ==== Sys2Proof/Machine/State.lean ====
section
/-! DEFINITION. The whole state of the core as plain data (10_state.md rule R10), the two reason types, and the state after
`create` and `reset` (R28). -/

namespace Sys2Proof.Machine

/-- The faults of the machine: none. "No operation in this core is permitted to raise a fatal fault/abort" (R170), so the
type has no constructor and no step can end in a fault (safe: nothing is hidden by it). -/
inductive Fault where
deriving DecidableEq, Repr

/-- The reasons a step can be refused. -/
inductive Refusal where
  /-- Raised only by an arm of `exec` whose instruction has no meaning yet; no arm raises it (safe). -/
  | notModelled (mnemonic : String)
deriving DecidableEq, Repr

/-- The display `disp[y][x]`: 32 rows of 64 one-bit pixels, row 0 at the top, column 0 at the left (R22). -/
abbrev Display := Vector (Vector Bool 64) 32

/-- The state of the core (R10). -/
structure State where
  /-- `V[0..15]`; `V[15]` is VF (R11, R12). -/
  v : Vector Byte 16
  /-- The index register `I` (R16). -/
  i : Word
  /-- The program counter: 16 bits of storage, its value always in 0..0xFFF (R14). -/
  pc : Word
  /-- The call stack's cells (R17). -/
  stack : Vector Word 16
  /-- The number of stack entries in use, 0..16 (R17). -/
  sp : Fin 17
  /-- The delay timer `DT` (R18). -/
  dt : Byte
  /-- The sound timer `ST` (R19). -/
  st : Byte
  /-- The display (R22). -/
  disp : Display
  /-- The key latches `key[0..15]`, true while pressed (R23). -/
  keys : Vector Bool 16
  /-- `wait.pending` (R24). -/
  waitPending : Bool
  /-- `wait.target`, meaningful only while `wait.pending` (R24, D14). -/
  waitTarget : Nibble
  /-- The straps `q`, constant after creation (R6, R27). -/
  quirks : Quirks
  /-- `RNG_PRESENT`: whether a random source was supplied at creation (R7, R26). -/
  rngPresent : Bool
  /-- THE MODEL'S OWN: how many bytes the random source has supplied; the argument of the free value (assumption log 3). -/
  rngDraws : Nat
  /-- The parameters `KEYWAIT_ADVANCE`, `HAS_8XY0` and `FONT` of R7, constant after creation. -/
  params : Params
  /-- `mem[0..4095]` (R20): the addresses whose byte differs from `initialByte params.font`, strictly rising. -/
  mem : List Host.Cell
deriving DecidableEq, Repr

/-- A display with every pixel 0 (R22, R28). -/
def Display.clear : Display := Vector.replicate 32 (Vector.replicate 64 false)

/-- The state after `create` with the given straps, parameters and random source (R28, R80): every other element at its
reset value. -/
def State.create (q : Quirks) (p : Params) (rng : Bool) : State :=
  { v := Vector.replicate 16 0#8, i := 0#16, pc := 0x200#16, stack := Vector.replicate 16 0#16, sp := 0, dt := 0#8,
    st := 0#8, disp := Display.clear, keys := Vector.replicate 16 false, waitPending := false, waitTarget := 0#4,
    quirks := q, rngPresent := rng, rngDraws := 0, params := p, mem := [] }

/-- The machine right after reset: `create` with the default straps and this hardware's parameters (R6, R7, R28). -/
def State.reset : State := State.create defaultQuirks defaultParams defaultRngPresent

end Sys2Proof.Machine
end

