-- ==== Sys2Proof/Machine/Ops.lean ====
section
/-! DEFINITION. The named operations over the state: registers, program counter, call stack, memory, display, keys and the
outcome of an instruction. R170 and R178 give this machine no exception to take and none to return from, so there is no such
operation. -/

namespace Sys2Proof.Machine

/-- How an instruction's meaning ends. -/
abbrev Result := Host.Outcome State Fault Refusal

/-! Registers -/

/-- VF is `V[15]` (R12). -/
abbrev vf : Nibble := 0xF#4

/-- `V[x]` (R11). -/
def State.reg (s : State) (x : Nibble) : Byte := s.v[x.toNat]'x.isLt

/-- `V[x] <- b` (R11). -/
def State.setReg (s : State) (x : Nibble) (b : Byte) : State := { s with v := s.v.set x.toNat b x.isLt }

/-- `V[x] <- b`, then `VF <- f`, the flag last (R13, D5). -/
def State.setRegFlag (s : State) (x : Nibble) (b f : Byte) : State := (s.setReg x b).setReg vf f

/-- `I <- w` (R16). -/
def State.setI (s : State) (w : Word) : State := { s with i := w }

/-- `DT <- b` (R18). -/
def State.setDT (s : State) (b : Byte) : State := { s with dt := b }

/-- `ST <- b` (R19). -/
def State.setST (s : State) (b : Byte) : State := { s with st := b }

/-! Program counter and the outcome of an instruction -/

/-- `t mod 4096` as a program-counter value (R14, D3). -/
def pcOfNat (t : Nat) : Word := BitVec.ofNat 16 (t % memSize)

/-- `pc <- t`, reduced modulo 4096 as every write of `pc` is (R14, D3). -/
def State.setPc (s : State) (t : Nat) : State := { s with pc := pcOfNat t }

/-- The executor's return contract (R87). -/
inductive Advance where
  /-- Auto-advance: the next instruction. -/
  | advance2
  /-- Auto-advance with one skip taken (R108). -/
  | advance4
  /-- The instruction has set `pc` itself or leaves it (R87). -/
  | noAdvance
deriving DecidableEq, Repr

/-- What `step` does with the executor's outcome (R82). -/
def State.advance (s : State) : Advance → State
  | .advance2 => s.setPc (s.pc.toNat + 2)
  | .advance4 => s.setPc (s.pc.toNat + 4)
  | .noAdvance => s

/-- The outcome of a skip: 4 when its condition holds, else 2 (R108). -/
def skipOutcome (c : Bool) : Advance := if c then .advance4 else .advance2

/-- An instruction's effect followed by its outcome (R82): the machine goes on. -/
def finish (s : State) (a : Advance) : Result := .next (s.advance a)

/-! Call stack (R17) -/

/-- The return address CALL pushes: `(A + 2) mod 4096` (R103, D4). -/
def State.returnAddress (s : State) : Word := pcOfNat (s.pc.toNat + 2)

/-- `stack[k] <- w` (R17). -/
def State.setCell (s : State) (k : Fin 16) (w : Word) : State := { s with stack := s.stack.set k.val w k.isLt }

/-- `sp <- n` (R17). -/
def State.setSp (s : State) (n : Fin 17) : State := { s with sp := n }

/-- Push: the state with one entry more, or nothing when the stack is full (R17). -/
def State.push (s : State) (w : Word) : Option State :=
  if h : s.sp.val < 16 then some ((s.setCell ⟨s.sp.val, h⟩ w).setSp ⟨s.sp.val + 1, by omega⟩) else none

/-- Pop, or nothing when the stack is empty: the state with one entry less and the entry, whose cell keeps its value
(R17, D22). -/
def State.pop (s : State) : Option (State × Word) :=
  if h : 0 < s.sp.val then some (s.setSp ⟨s.sp.val - 1, by omega⟩, s.stack[s.sp.val - 1]'(by omega)) else none

/-! Memory (R20, R40, R44) -/

/-- The byte at address `a` of a memory list, for the parameter `FONT`. -/
def memGet (f : Font) : List Host.Cell → Nat → Byte
  | [], a => initialByte f a
  | (k, c) :: rest, a => if k = a then c else memGet f rest a

/-- A memory list with the byte at address `a` made `b`; a byte equal to the initial one is not listed. -/
def memPut (f : Font) : List Host.Cell → Nat → Byte → List Host.Cell
  | [], a, b => if b = initialByte f a then [] else [(a, b)]
  | (k, c) :: rest, a, b =>
    if a < k then (if b = initialByte f a then (k, c) :: rest else (a, b) :: (k, c) :: rest)
    else if a = k then (if b = initialByte f a then rest else (a, b) :: rest)
    else (k, c) :: memPut f rest a b

/-- The canonical form from address `lo` on: addresses strictly rising and below 4096, no entry equal to what an unlisted
address reads as. -/
def Memory.wfFrom (f : Font) (lo : Nat) : List Host.Cell → Bool
  | [] => true
  | (k, c) :: rest => lo ≤ k && k < memSize && c != initialByte f k && Memory.wfFrom f (k + 1) rest

/-- The canonical form of a memory list. -/
def Memory.wf (f : Font) (m : List Host.Cell) : Bool := Memory.wfFrom f 0 m

/-- The state's memory is in its canonical form, for the state's own `FONT`. -/
def State.memWf (s : State) : Bool := Memory.wf s.params.font s.mem

/-- The address that reaches memory: reduced modulo 4096 (R44, D2). -/
def wrapAddr (a : Nat) : Nat := a % memSize

/-- `MemRead(a, 1)` (R9, R44). -/
def State.readByte (s : State) (a : Nat) : Byte := memGet s.params.font s.mem (wrapAddr a)

/-- `MemWrite(a, 1, b)` (R9, R44). -/
def State.writeByte (s : State) (a : Nat) (b : Byte) : State := { s with mem := memPut s.params.font s.mem (wrapAddr a) b }

/-- `MemRead(a, 2)`: big-endian, for the instruction fetch (R9, R41). -/
def State.fetchWordAt (s : State) (a : Nat) : Word := wordOfBytes (s.readByte a) (s.readByte (a + 1))

/-- The instruction `step` fetches at `pc`, decoded (R82). -/
def State.fetch (s : State) : Except Undecoded Instr := decode (s.readByte s.pc.toNat) (s.readByte (s.pc.toNat + 1))

/-- A word stored big-endian at `a` (R41). -/
def State.placeWord (s : State) (a : Nat) (w : Word) : State :=
  (s.writeByte a (highByte w)).writeByte (a + 1) (lowByte w)

/-- A sequence of bytes written from address `a` on, in ascending order (R83). -/
def State.writeBytes (s : State) (a : Nat) : List Byte → State
  | [] => s
  | b :: rest => (s.writeByte a b).writeBytes (a + 1) rest

/-- `MemWrite(a + i, 1, V[i])` for the first `n` registers, in ascending order (R144). -/
def State.storeRegs (s : State) (a : Nat) : Nat → State
  | 0 => s
  | n + 1 => (s.storeRegs a n).writeByte (a + n) (s.reg (BitVec.ofNat 4 n))

/-- `V[i] <- MemRead(a + i, 1)` for the first `n` registers, in ascending order (R145). -/
def State.loadRegs (s : State) (a : Nat) : Nat → State
  | 0 => s
  | n + 1 => (s.loadRegs a n).setReg (BitVec.ofNat 4 n) (s.readByte (a + n))

/-! Display (R22) -/

/-- `disp[y][x]` of a display. -/
def pixelOf (d : Display) (y : Fin 32) (x : Fin 64) : Bool := d[y.val][x.val]

/-- `disp[y][x]`. -/
def State.pixel (s : State) (y : Fin 32) (x : Fin 64) : Bool := pixelOf s.disp y x

/-- A display with `disp[y][x] <- disp[y][x] ^ 1` (R151). -/
def flipPixel (d : Display) (y : Fin 32) (x : Fin 64) : Display :=
  d.set y.val (d[y.val].set x.val (!pixelOf d y x) x.isLt) y.isLt

/-- The display replaced. -/
def State.setDisp (s : State) (d : Display) : State := { s with disp := d }

/-! Keys and the key-wait (R23, R24) -/

/-- `key[k]` (R23). -/
def State.key (s : State) (k : Nibble) : Bool := s.keys[k.toNat]'k.isLt

/-- `key[k] <- b` (R23). -/
def State.setKey (s : State) (k : Nibble) (b : Bool) : State := { s with keys := s.keys.set k.toNat b k.isLt }

/-- `wait.pending <- true; wait.target <- x` (R163). -/
def State.armWait (s : State) (x : Nibble) : State := { s with waitPending := true, waitTarget := x }

/-- `wait.pending <- false`; the target keeps its value (R85, D14). -/
def State.clearWait (s : State) : State := { s with waitPending := false }

/-- Whether `step` changes nothing because a key-wait is pending (R82, R88). -/
def State.stalled (s : State) : Bool := s.waitPending

/-! Random source (R26) -/

/-- `Rng()`: the byte the environment supplies for this draw, or 0 when there is no source (R7, R133). -/
def State.randomByte (s : State) : Byte := if s.rngPresent then Config.randomByte s.rngDraws else 0#8

/-- The source has been sampled once (R133). -/
def State.countDraw (s : State) : State := { s with rngDraws := if s.rngPresent then s.rngDraws + 1 else s.rngDraws }

/-! The undecoded no-op -/

/-- A word that matches no row: no state changes but `pc <- (pc + 2) mod 4096` (R70, R175). -/
def execUndecoded (s : State) : Result := finish s .advance2

end Sys2Proof.Machine
end

