-- ==== Sys2Proof/Machine/Operands.lean ====
section
/-! DEFINITION. The operand forms: what each instruction computes from its fields and the state before it writes anything
(R13, R63, R146). -/

namespace Sys2Proof.Machine

/-- The source of SHR and SHL: `V[y]` under strap `shift_uses_vy`, else `V[x]` (R130, R132). -/
def shiftSource (s : State) (x y : Nibble) : Byte := if s.quirks.shiftUsesVy then s.reg y else s.reg x

/-- The register Bnnn adds: `x`, the top nibble of nnn, under strap `jump_with_offset_uses_vx0`, else 0 (R109). -/
def jumpRegister (s : State) (nnn : Addr) : Nibble :=
  if s.quirks.jumpWithOffsetUsesVx0 then nnn.extractLsb' 8 4 else 0#4

/-- The effective address of the `k`-th byte of an access through `I`, before the memory wraps it (R44, R146). -/
def indexAddr (s : State) (k : Nat) : Nat := s.i.toNat + k

/-- The address of the glyph the low nibble of `b` selects: `0x050 + 5 * (b & 0xF)` (R142). -/
def glyphAddr (b : Byte) : Word := BitVec.ofNat 16 (fontBase + 5 * (b.toNat % 16))

/-- The key a register value selects: its low nibble (R160, R161). -/
def keyOf (b : Byte) : Nibble := b.extractLsb' 0 4

/-- The column of a sprite's origin: `V[x] mod 64` (R151, R152). -/
def originColumn (b : Byte) : Nat := b.toNat % 64

/-- The row of a sprite's origin: `V[y] mod 32` (R151, R152). -/
def originRow (b : Byte) : Nat := b.toNat % 32

/-- The decimal digits of a byte: hundreds, tens, ones (R143). -/
def hundreds (b : Byte) : Byte := BitVec.ofNat 8 (b.toNat / 100)

/-- The tens digit (R143). -/
def tens (b : Byte) : Byte := BitVec.ofNat 8 (b.toNat / 10 % 10)

/-- The ones digit (R143). -/
def ones (b : Byte) : Byte := BitVec.ofNat 8 (b.toNat % 10)

/-- `I` after a block move of the registers up to `x`: `(I + x + 1) mod 65536` under strap `mem_ops_increment_i`, else
unchanged (R144, R145, R147). -/
def indexAfterBlock (s : State) (x : Nibble) : Word :=
  if s.quirks.memOpsIncrementI then BitVec.ofNat 16 (s.i.toNat + x.toNat + 1) else s.i

/-- The key number of a key event, when it is one of 0..15 (R85, R86, R173). -/
def keyNumber (k : Int) : Option Nibble := if 0 ≤ k ∧ k ≤ 15 then some (BitVec.ofNat 4 k.toNat) else none

/-- The number `KEYWAIT_ADVANCE` stands for (R7). -/
def keywaitAmount : KeywaitAdvance → Nat
  | .zero => 0
  | .two => 2

end Sys2Proof.Machine
end

