-- ==== Sys2Proof/Machine/Flags.lean ====
section
/-! DEFINITION. The flag computations: every value an instruction writes to VF as a flag (R12). -/

namespace Sys2Proof.Machine

/-- A flag's byte: 1 or 0 (R12). -/
def flagByte (c : Bool) : Byte := if c then 1#8 else 0#8

/-- ADD: 1 iff the nine-bit sum exceeds 255 (R126). -/
def carryFlag (a b : Byte) : Byte := flagByte (decide (a.toNat + b.toNat > 255))

/-- SUB and SUBN: 1 iff `a > b`, strictly (R127, R131). -/
def noBorrowFlag (a b : Byte) : Byte := flagByte (decide (a.toNat > b.toNat))

/-- SHR: bit 0 of the source (R130). -/
def shiftRightFlag (src : Byte) : Byte := flagByte (src.getLsbD 0)

/-- SHL: bit 7 of the source (R132). -/
def shiftLeftFlag (src : Byte) : Byte := flagByte (src.getLsbD 7)

/-- OR, AND and XOR: 0 (R123 to R125). -/
def logicFlag : Byte := flagByte false

/-- DRW: 1 iff a lit pixel was turned off (R151). -/
def collisionFlag (c : Bool) : Byte := flagByte c

end Sys2Proof.Machine
end

