-- ==== Sys2Proof/Machine/Alu.lean ====
section
/-! DEFINITION. The load, arithmetic, logic, shift and random instructions (42_load_alu_random.md rules R120 to R133). Every
result wraps at 8 bits (R129); operands are read before any write and VF is written last (R13, R128). -/

namespace Sys2Proof.Machine

/-- LD Vx, kk (R120). -/
def execLdImm (x : Nibble) (kk : Byte) (s : State) : Result := finish (s.setReg x kk) .advance2

/-- ADD Vx, kk; VF is not written as a flag (R121). -/
def execAddImm (x : Nibble) (kk : Byte) (s : State) : Result := finish (s.setReg x (s.reg x + kk)) .advance2

/-- LD Vx, Vy; the undecoded no-op when `HAS_8XY0` is false (R122, R7). -/
def execLdReg (x y : Nibble) (s : State) : Result :=
  if s.params.has8xy0 then finish (s.setReg x (s.reg y)) .advance2 else execUndecoded s

/-- OR Vx, Vy (R123). -/
def execOrReg (x y : Nibble) (s : State) : Result :=
  finish (s.setRegFlag x (s.reg x ||| s.reg y) logicFlag) .advance2

/-- AND Vx, Vy (R124). -/
def execAndReg (x y : Nibble) (s : State) : Result :=
  finish (s.setRegFlag x (s.reg x &&& s.reg y) logicFlag) .advance2

/-- XOR Vx, Vy (R125). -/
def execXorReg (x y : Nibble) (s : State) : Result :=
  finish (s.setRegFlag x (s.reg x ^^^ s.reg y) logicFlag) .advance2

/-- ADD Vx, Vy (R126). -/
def execAddReg (x y : Nibble) (s : State) : Result :=
  finish (s.setRegFlag x (s.reg x + s.reg y) (carryFlag (s.reg x) (s.reg y))) .advance2

/-- SUB Vx, Vy (R127). -/
def execSubReg (x y : Nibble) (s : State) : Result :=
  finish (s.setRegFlag x (s.reg x - s.reg y) (noBorrowFlag (s.reg x) (s.reg y))) .advance2

/-- SHR Vx, Vy (R130). -/
def execShrReg (x y : Nibble) (s : State) : Result :=
  finish (s.setRegFlag x (shiftSource s x y >>> 1) (shiftRightFlag (shiftSource s x y))) .advance2

/-- SUBN Vx, Vy (R131). -/
def execSubnReg (x y : Nibble) (s : State) : Result :=
  finish (s.setRegFlag x (s.reg y - s.reg x) (noBorrowFlag (s.reg y) (s.reg x))) .advance2

/-- SHL Vx, Vy (R132). -/
def execShlReg (x y : Nibble) (s : State) : Result :=
  finish (s.setRegFlag x (shiftSource s x y <<< 1) (shiftLeftFlag (shiftSource s x y))) .advance2

/-- RND Vx, kk: one sample of the random source (R133, R26). -/
def execRnd (x : Nibble) (kk : Byte) (s : State) : Result :=
  finish (s.countDraw.setReg x (s.randomByte &&& kk)) .advance2

end Sys2Proof.Machine
end

