-- ==== Sys2Proof/Machine/ControlFlow.lean ====
section
/-! DEFINITION. The control-flow instructions (41_control_flow.md rules R100 to R110). -/

namespace Sys2Proof.Machine

/-- SYS nnn: nothing but the advance (R100). -/
def execSys (_nnn : Addr) (s : State) : Result := finish s .advance2

/-- RET: pop and jump; with an empty stack nothing, and `pc` stays (R101, R174). -/
def execRet (_x : Nibble) (s : State) : Result :=
  match s.pop with
  | some (t, w) => finish (t.setPc w.toNat) .noAdvance
  | none => finish s .noAdvance

/-- JP nnn (R102). -/
def execJp (nnn : Addr) (s : State) : Result := finish (s.setPc nnn.toNat) .noAdvance

/-- CALL nnn: push the return address and jump; with a full stack nothing, and `pc` stays (R103, R174). -/
def execCall (nnn : Addr) (s : State) : Result :=
  match s.push s.returnAddress with
  | some t => finish (t.setPc nnn.toNat) .noAdvance
  | none => finish s .noAdvance

/-- SE Vx, kk (R104). -/
def execSeImm (x : Nibble) (kk : Byte) (s : State) : Result := finish s (skipOutcome (s.reg x == kk))

/-- SNE Vx, kk (R105). -/
def execSneImm (x : Nibble) (kk : Byte) (s : State) : Result := finish s (skipOutcome (s.reg x != kk))

/-- SE Vx, Vy (R106); the low nibble is ignored (R69). -/
def execSeReg (x y _n : Nibble) (s : State) : Result := finish s (skipOutcome (s.reg x == s.reg y))

/-- SNE Vx, Vy (R107); the low nibble is ignored (R69). -/
def execSneReg (x y _n : Nibble) (s : State) : Result := finish s (skipOutcome (s.reg x != s.reg y))

/-- JP V0, nnn (R109). -/
def execJpV0 (nnn : Addr) (s : State) : Result :=
  finish (s.setPc (nnn.toNat + (s.reg (jumpRegister s nnn)).toNat)) .noAdvance

end Sys2Proof.Machine
end

