-- ==== Sys2Proof/Machine/Draw.lean ====
section
/-! DEFINITION. The display instructions (44_display.md rules R150 to R153): the drawing loop of R151, and CLS and DRW. -/

namespace Sys2Proof.Machine

/-- A draw in progress: the display so far, and whether a lit pixel has met a lit sprite bit. -/
structure Canvas where
  /-- The display so far. -/
  disp : Display
  /-- The collision so far: raised, never lowered (R151). -/
  hit : Bool
deriving DecidableEq, Repr

/-- One lit sprite bit met with the pixel at row `y`, column `x` (R151). -/
def Canvas.toggle (c : Canvas) (y : Fin 32) (x : Fin 64) : Canvas :=
  { disp := flipPixel c.disp y x, hit := c.hit || pixelOf c.disp y x }

/-- The first `n` columns of a sprite row `b` at display row `y`: column `col` is bit `7 - col` (R152) and lands on
`(ox + col) mod 64`. -/
def Canvas.drawColumns (c : Canvas) (b : Byte) (ox : Nat) (y : Fin 32) : Nat → Canvas
  | 0 => c
  | n + 1 =>
    if b.getLsbD (7 - n) then (c.drawColumns b ox y n).toggle y (Fin.ofNat 64 (ox + n)) else c.drawColumns b ox y n

/-- The first `n` rows of the sprite at `I`: a row that would land at 32 or beyond is skipped (R151, R152). -/
def Canvas.drawRows (c : Canvas) (s : State) (ox oy : Nat) : Nat → Canvas
  | 0 => c
  | n + 1 =>
    if h : oy + n < 32 then
      (c.drawRows s ox oy n).drawColumns (s.readByte (indexAddr s n)) ox ⟨oy + n, h⟩ 8
    else c.drawRows s ox oy n

/-- The display and the collision after drawing `n` rows with the origin in `V[x]`, `V[y]` of `s` (R151). -/
def drawSprite (s : State) (x y n : Nibble) : Canvas :=
  Canvas.drawRows { disp := s.disp, hit := false } s (originColumn (s.reg x)) (originRow (s.reg y)) n.toNat

/-- CLS (R150). -/
def execCls (_x : Nibble) (s : State) : Result := finish (s.setDisp Display.clear) .advance2

/-- DRW Vx, Vy, n (R151); the origin is read before VF is written (R13). -/
def execDrw (x y n : Nibble) (s : State) : Result :=
  finish ((s.setDisp (drawSprite s x y n).disp).setReg vf (collisionFlag (drawSprite s x y n).hit)) .advance2

end Sys2Proof.Machine
end

