-- ==== Sys2Proof/Machine/IndexMemory.lean ====
section
/-! DEFINITION. The index-register and memory instructions (43_index_memory.md rules R140 to R147). -/

namespace Sys2Proof.Machine

/-- LD I, nnn (R140). -/
def execLdI (nnn : Addr) (s : State) : Result := finish (s.setI (nnn.setWidth 16)) .advance2

/-- ADD I, Vx: a 16-bit add, VF untouched (R141). -/
def execAddIVx (x : Nibble) (s : State) : Result := finish (s.setI (s.i + (s.reg x).setWidth 16)) .advance2

/-- LD F, Vx (R142). -/
def execLdFVx (x : Nibble) (s : State) : Result := finish (s.setI (glyphAddr (s.reg x))) .advance2

/-- LD B, Vx: the three decimal digits to I, I + 1, I + 2 (R143). -/
def execLdBVx (x : Nibble) (s : State) : Result :=
  finish (((s.writeByte (indexAddr s 0) (hundreds (s.reg x))).writeByte (indexAddr s 1) (tens (s.reg x))).writeByte
    (indexAddr s 2) (ones (s.reg x))) .advance2

/-- LD [I], Vx: store V0..Vx (R144). -/
def execLdMemVx (x : Nibble) (s : State) : Result :=
  finish ((s.storeRegs (indexAddr s 0) (x.toNat + 1)).setI (indexAfterBlock s x)) .advance2

/-- LD Vx, [I]: load V0..Vx (R145). -/
def execLdVxMem (x : Nibble) (s : State) : Result :=
  finish ((s.loadRegs (indexAddr s 0) (x.toNat + 1)).setI (indexAfterBlock s x)) .advance2

end Sys2Proof.Machine
end

