-- ==== Sys2Proof/Machine/KeysTimers.lean ====
section
/-! DEFINITION. The keypad and timer instructions (45_keys_timers.md rules R160 to R165). -/

namespace Sys2Proof.Machine

/-- SKP Vx (R160). -/
def execSkp (x : Nibble) (s : State) : Result := finish s (skipOutcome (s.key (keyOf (s.reg x))))

/-- SKNP Vx (R161). -/
def execSknp (x : Nibble) (s : State) : Result := finish s (skipOutcome (!s.key (keyOf (s.reg x))))

/-- LD Vx, DT (R162). -/
def execLdVxDT (x : Nibble) (s : State) : Result := finish (s.setReg x s.dt) .advance2

/-- LD Vx, K: arm the key-wait; `pc` stays (R163). -/
def execLdVxK (x : Nibble) (s : State) : Result := finish (s.armWait x) .noAdvance

/-- LD DT, Vx (R164). -/
def execLdDTVx (x : Nibble) (s : State) : Result := finish (s.setDT (s.reg x)) .advance2

/-- LD ST, Vx (R165). -/
def execLdSTVx (x : Nibble) (s : State) : Result := finish (s.setST (s.reg x)) .advance2

end Sys2Proof.Machine
end

