-- ==== Sys2Proof/Machine/Step.lean ====
section
/-! DEFINITION. The event `step`: one fetch-decode-execute cycle (40_cycle_and_host_ops.md rule R82), and the host's way of
placing an instruction where the next step fetches it. -/

namespace Sys2Proof.Machine

/-- `step()` (R82): nothing while a key-wait is pending (R88), else the instruction at `pc`; a word that matches no row of
the opcode table is the undecoded no-op (R70). -/
def step (s : State) : Host.Outcome State Fault Refusal :=
  if s.stalled then .next s
  else
    match s.fetch with
    | .ok i => exec i s
    | .error _ => execUndecoded s

/-- The state with the table's word stored big-endian where `step` fetches next; a pending key-wait, during which `step`
fetches nothing (R88), is cleared (assumption log 4). -/
def State.withFetchWord (s : State) (nbits w : Nat) : State :=
  (s.clearWait).placeWord s.pc.toNat (BitVec.ofNat 16 (w % 2 ^ nbits))

end Sys2Proof.Machine
end

