-- ==== Sys2Proof/Machine/Events.lean ====
section
/-! DEFINITION. The environment's events other than `step`, and the outputs it reads (40_cycle_and_host_ops.md rules R80 to
R94). Each event is one atomic transition; the environment chooses their order (R8, R89). `create` is `State.create`. -/

namespace Sys2Proof.Machine

/-- `reset()`: the body of `create` with the straps, the parameters and the random source kept (R81, R27, D12). -/
def resetEvent (s : State) : State :=
  { State.create s.quirks s.params s.rngPresent with rngDraws := s.rngDraws }

/-- Whether `load_program` refuses a program of this length: non-empty and `0x200 + L > 4096` (R83). -/
def tooLarge (bytes : List Byte) : Bool := decide (0 < bytes.length ∧ progBase + bytes.length > memSize)

/-- The result of `load_program`, the only error any event reports (R83, R172). -/
inductive LoadResult where
  /-- The program was copied and `pc` is 0x200. -/
  | success
  /-- The program is too large and nothing changed. -/
  | failure
deriving DecidableEq, Repr

/-- `load_program(bytes)` (R83). -/
def loadProgram (bytes : List Byte) (s : State) : LoadResult × State :=
  if tooLarge bytes then (.failure, s) else (.success, (s.writeBytes progBase bytes).setPc progBase)

/-- A timer decremented by 1, floored at 0 (R84). -/
def countDown (b : Byte) : Byte := if b = 0#8 then 0#8 else b - 1#8

/-- `tick_timers()` (R84). -/
def tickTimers (s : State) : State := (s.setDT (countDown s.dt)).setST (countDown s.st)

/-- The resolution of a pending key-wait by key `k` (R85). -/
def State.resolveWait (s : State) (k : Nibble) : State :=
  ((s.setReg s.waitTarget (k.setWidth 8)).clearWait).setPc (s.pc.toNat + keywaitAmount s.params.keywaitAdvance)

/-- `key_down(k)`: ignored outside 0..15, else the latch is set and a pending wait is resolved (R85, R173). -/
def keyDown (k : Int) (s : State) : State :=
  match keyNumber k with
  | none => s
  | some n => if s.waitPending then (s.setKey n true).resolveWait n else s.setKey n true

/-- `key_up(k)`: ignored outside 0..15, else the latch is cleared; it resolves no wait (R86, R173). -/
def keyUp (k : Int) (s : State) : State :=
  match keyNumber k with
  | none => s
  | some n => s.setKey n false

/-- The events that change the state after `create` (R8). -/
inductive Event where
  /-- `reset()`. -/
  | reset
  /-- `load_program(bytes)`. -/
  | loadProgram (bytes : List Byte)
  /-- `step()`. -/
  | step
  /-- `tick_timers()`. -/
  | tickTimers
  /-- `key_down(k)`. -/
  | keyDown (k : Int)
  /-- `key_up(k)`. -/
  | keyUp (k : Int)
deriving DecidableEq, Repr

/-- One event applied (R8). -/
def applyEvent (e : Event) (s : State) : Result :=
  match e with
  | .reset => .next (resetEvent s)
  | .loadProgram bytes => .next (loadProgram bytes s).2
  | .step => step s
  | .tickTimers => .next (tickTimers s)
  | .keyDown k => .next (keyDown k s)
  | .keyUp k => .next (keyUp k s)

/-- A run: the events applied one at a time, in the order the environment chooses (R8, R48). -/
def runEvents : List Event → State → Result
  | [], s => .next s
  | e :: rest, s =>
    match applyEvent e s with
    | .next t => runEvents rest t
    | .fault r => .fault r
    | .refused r => .refused r

/-! Outputs: pure functions of the state (R92 to R94, R181) -/

/-- The byte 0 or 1 of a pixel (R92). -/
def pixelByte (b : Bool) : Byte := if b then 1#8 else 0#8

/-- `framebuffer()`: the display as 2048 bytes in row-major order (R92). -/
def framebuffer (s : State) : List Byte := (s.disp.toList.map fun row => row.toList.map pixelByte).flatten

/-- One byte of the FNV-1a hash: XOR, then multiply, modulo 2^32 (R94). -/
def fnvByte (h : BitVec 32) (b : Byte) : BitVec 32 := (h ^^^ b.setWidth 32) * 0x01000193#32

/-- The FNV-1a hash of a sequence of bytes (R94). -/
def fnvHash (bytes : List Byte) : BitVec 32 := bytes.foldl fnvByte 0x811C9DC5#32

/-- `display_hash()` (R94). -/
def displayHash (s : State) : BitVec 32 := fnvHash (framebuffer s)

/-- The top-of-stack value, 0 if the stack is empty (R93). -/
def stackTop (s : State) : Word :=
  match s.pop with
  | some (_, w) => w
  | none => 0#16

/-- The record `snapshot()` returns (R93). -/
structure Snapshot where
  /-- `pc`. -/
  pc : Word
  /-- `I`. -/
  i : Word
  /-- `V[0..15]`. -/
  v : Vector Byte 16
  /-- `DT`. -/
  delayTimer : Byte
  /-- `ST`. -/
  soundTimer : Byte
  /-- `sp`. -/
  stackDepth : Fin 17
  /-- The top-of-stack value, 0 if empty. -/
  stackTop : Word
  /-- The display hash of R94. -/
  displayHash : BitVec 32
deriving DecidableEq, Repr

/-- `snapshot()` (R93). -/
def snapshot (s : State) : Snapshot :=
  { pc := s.pc, i := s.i, v := s.v, delayTimer := s.dt, soundTimer := s.st, stackDepth := s.sp, stackTop := stackTop s,
    displayHash := displayHash s }

/-- The tone output: `ST != 0` (R181). -/
def tone (s : State) : Bool := s.st != 0#8

end Sys2Proof.Machine
end

