-- ==== Sys2Proof/Safety.lean ====
section
/-! DEFINITION. The terms claims are stated in: the invariant of R25, what an instruction leaves unchanged, the way `pc`
moves, and the pixels a sprite covers, each said from the spec's words and not from the machine's code. -/

namespace Sys2Proof.Safety

open Sys2Proof.Machine

/-- The invariant of R25 that the fields' types do not already say: `pc` and every stack cell lie in 0..0xFFF, and memory is
in its canonical form. -/
def StateInv (s : State) : Prop :=
  s.pc.toNat < memSize ∧ (∀ k : Fin 16, (s.stack[k.val]).toNat < memSize) ∧ s.memWf = true

/-- The parts of the state a frame speaks of (R10). -/
inductive Part where
  | regs
  | index
  | pc
  | stack
  | delay
  | sound
  | disp
  | keys
  | wait
  | draws
  | mem
deriving DecidableEq, Repr

/-- Two states agree on a part; on memory, every byte reads the same. -/
def SamePart (p : Part) (s t : State) : Prop :=
  match p with
  | .regs => ∀ r : Nibble, t.reg r = s.reg r
  | .index => t.i = s.i
  | .pc => t.pc = s.pc
  | .stack => t.stack = s.stack ∧ t.sp = s.sp
  | .delay => t.dt = s.dt
  | .sound => t.st = s.st
  | .disp => t.disp = s.disp
  | .keys => t.keys = s.keys
  | .wait => t.waitPending = s.waitPending ∧ t.waitTarget = s.waitTarget
  | .draws => t.rngDraws = s.rngDraws
  | .mem => ∀ a : Nat, t.readByte a = s.readByte a

/-- From `s` to `t` only the listed parts may differ; the straps, the parameters and the presence of a random source never
do (R27). -/
def OnlyChanges (ps : List Part) (s t : State) : Prop :=
  t.quirks = s.quirks ∧ t.params = s.params ∧ t.rngPresent = s.rngPresent ∧ ∀ p : Part, p ∉ ps → SamePart p s t

/-- `pc <- (A + n) mod 4096` (R82). -/
def Advanced (n : Nat) (s t : State) : Prop := t.pc.toNat = (s.pc.toNat + n) % 4096

/-- The advance of a skip: 4 when its condition holds, else 2 (R108). -/
def Skipped (c : Prop) (s t : State) : Prop := (c → Advanced 4 s t) ∧ (¬c → Advanced 2 s t)

/-- The registers after an instruction that writes `V[x] <- b` and then the flag `VF <- f` (R13). -/
def WritesRegFlag (x : Nibble) (b f : Nat) (s t : State) : Prop :=
  (t.reg 15#4).toNat = f ∧ (x ≠ 15#4 → (t.reg x).toNat = b) ∧ ∀ r : Nibble, r ≠ x → r ≠ 15#4 → t.reg r = s.reg r

/-- The registers after an instruction that writes `V[x] <- b` alone. -/
def WritesReg (x : Nibble) (b : Nat) (s t : State) : Prop :=
  (t.reg x).toNat = b ∧ ∀ r : Nibble, r ≠ x → t.reg r = s.reg r

/-- The pixel at row `py`, column `px` is met by a lit bit of the sprite at `I`: some row and column offset of the sprite land
on it, rows clipped at 32 and columns wrapped at 64, bit 7 leftmost (R151, R152). -/
def SpriteLit (s : State) (x y n : Nibble) (py : Fin 32) (px : Fin 64) : Prop :=
  ∃ row col : Nat, row < n.toNat ∧ col < 8 ∧ py.val = (s.reg y).toNat % 32 + row ∧
    px.val = ((s.reg x).toNat % 64 + col) % 64 ∧ (s.readByte (s.i.toNat + row)).getLsbD (7 - col) = true

/-- The font region holds the parameter `FONT`: glyph g at 0x050 + 5g (R21). -/
def FontInPlace (s : State) : Prop := ∀ k : Fin 80, s.readByte (0x050 + k.val) = s.params.font[k.val]

/-- The elements of the state at the values of the table of R28 that do not depend on what `create` was given. -/
def AtResetValues (s : State) : Prop :=
  (∀ r : Nibble, s.reg r = 0#8) ∧ s.i = 0#16 ∧ s.pc = 0x200#16 ∧ s.sp.val = 0 ∧
  (∀ k : Fin 16, s.stack[k.val] = 0#16) ∧ s.dt = 0#8 ∧ s.st = 0#8 ∧ (∀ y x, s.pixel y x = false) ∧
  (∀ k : Nibble, s.key k = false) ∧ s.waitPending = false ∧ s.waitTarget = 0#4 ∧
  FontInPlace s ∧ ∀ a : Nat, a < 0x050 ∨ (0x09F < a ∧ a < 4096) → s.readByte a = 0#8

/-- The instruction may write `V[r]` (R11): its destination x, VF as a flag, or the block of Fx65. -/
def MayWriteReg : Instr → Nibble → Prop
  | .ldImm x _, r | .addImm x _, r | .ldReg x _, r | .rnd x _, r | .ldVxDT x, r => r = x
  | .orReg x _, r | .andReg x _, r | .xorReg x _, r | .addReg x _, r | .subReg x _, r | .shrReg x _, r | .subnReg x _, r
  | .shlReg x _, r => r = x ∨ r = 15#4
  | .drw _ _ _, r => r = 15#4
  | .ldVxMem x, r => r.toNat ≤ x.toNat
  | .cls _, _ | .ret _, _ | .sys _, _ | .jp _, _ | .call _, _ | .seImm _ _, _ | .sneImm _ _, _ | .seReg _ _ _, _
  | .sneReg _ _ _, _ | .ldI _, _ | .jpV0 _, _ | .skp _, _ | .sknp _, _ | .ldVxK _, _ | .ldDTVx _, _ | .ldSTVx _, _
  | .addIVx _, _ | .ldFVx _, _ | .ldBVx _, _ | .ldMemVx _, _ => False

/-- The instruction is encoded by the one word whose number is `k`: that word, and no other, decodes to it. -/
def EncodedAs (i : Instr) (k : Nat) : Prop := ∀ w : Word, decodeWord w = .ok i ↔ w.toNat = k

/-- The word at `pc`, the byte at the lower address counting 256 times, is `w` (R41, R82). -/
def Fetches (s : State) (w : Word) : Prop :=
  w.toNat = 256 * (s.readByte s.pc.toNat).toNat + (s.readByte (s.pc.toNat + 1)).toNat

end Sys2Proof.Safety
end

