-- ==== Sys2Proof/Certificates/Slice0/Obligations.lean ====
section
/-! DEFINITION. The statements for the provers, each with the rule of spec/ it formalises. -/

open Sys2Proof Sys2Proof.Machine Sys2Proof.Safety

/-! Encoding and decoding (30_encoding.md) -/

/-- Words written out from the spec's encodings decode to the instructions they stand for (R61, R64 to R69; the words of
95_test_vectors.md section 2.6 among them), and three words of no row (R70, R71) are answered by the name of their space.
The pairing of codes with operations and the ignored nibbles are the spec's own decisions (assumption log 10 and 11); that
a word of no row is answered by a name and is no constructor is the model's choice (assumption log 20). -/
def Obligations.SpecWordsDecode : Prop :=
  decodeWord 0x00E0#16 = .ok (.cls 0x0#4) ∧ decodeWord 0x07EE#16 = .ok (.ret 0x7#4) ∧
  decodeWord 0x0FFF#16 = .ok (.sys 0xFFF#12) ∧ decodeWord 0x1ABC#16 = .ok (.jp 0xABC#12) ∧
  decodeWord 0x3245#16 = .ok (.seImm 0x2#4 0x45#8) ∧ decodeWord 0x5AB1#16 = .ok (.seReg 0xA#4 0xB#4 0x1#4) ∧
  decodeWord 0x81F4#16 = .ok (.addReg 0x1#4 0xF#4) ∧ decodeWord 0x8B6E#16 = .ok (.shlReg 0xB#4 0x6#4) ∧
  decodeWord 0xD7A5#16 = .ok (.drw 0x7#4 0xA#4 0x5#4) ∧ decodeWord 0xE29E#16 = .ok (.skp 0x2#4) ∧
  decodeWord 0xF355#16 = .ok (.ldMemVx 0x3#4) ∧ decodeWord 0x8AB8#16 = .error .family8 ∧
  decodeWord 0xE09F#16 = .error .familyE ∧ decodeWord 0xF000#16 = .error .familyF

/-- Decoding the word of a well-formed instruction gives the instruction back, whatever its operands (R60 to R69). The
code numbers are the spec's own pairing (assumption log 10). -/
def Obligations.DecodeEncodeReturnsInstruction : Prop :=
  ∀ i : Instr, i.WellFormed = true → decodeWord (encode i) = .ok i

/-- A word that decodes is the word of the well-formed instruction it decodes to: no two words share a decoding (R74). -/
def Obligations.EncodeDecodeReturnsWord : Prop :=
  ∀ (w : Word) (i : Instr), decodeWord w = .ok i → i.WellFormed = true ∧ encode i = w

/-- The words that match no row are those of R71 in families 8, E and F, each answered by its family's name, and the words
of family 0 that are not CLS or RET are SYS. The numbers are the spec's own pairing (assumption log 10); that such a word
is no constructor is the model's choice (assumption log 20). -/
def Obligations.UndecodedWordsAreThoseOfTheTable : Prop :=
  ∀ w : Word,
    (decodeWord w = .error .family8 ↔ w.toNat / 4096 = 8 ∧ w.toNat % 16 ∈ [0x8, 0x9, 0xA, 0xB, 0xC, 0xD, 0xF]) ∧
    (decodeWord w = .error .familyE ↔ w.toNat / 4096 = 14 ∧ w.toNat % 256 ∉ [0x9E, 0xA1]) ∧
    (decodeWord w = .error .familyF ↔ w.toNat / 4096 = 15 ∧
      w.toNat % 256 ∉ [0x07, 0x0A, 0x15, 0x18, 0x1E, 0x29, 0x33, 0x55, 0x65]) ∧
    ((∃ nnn, decodeWord w = .ok (.sys nnn)) ↔ w.toNat / 4096 = 0 ∧ w.toNat % 256 ∉ [0xE0, 0xEE])

/-! The cycle (40_cycle_and_host_ops.md) -/

/-- When no key-wait is pending and the two bytes at `pc` decode to an instruction, `step` is that instruction's execution
(R82). -/
def Obligations.StepRunsDecodedInstruction : Prop :=
  ∀ (s : State) (w : Word) (i : Instr), s.waitPending = false → Fetches s w → decodeWord w = .ok i → step s = exec i s

/-- The word the host places is the word the next step runs, with nothing else in the way (R41, R50, R82). The placing is
the model's own (assumption log 4). -/
def Obligations.StepRunsPlacedWord : Prop :=
  ∀ (s : State) (w : Word) (i : Instr), s.memWf = true → decodeWord w = .ok i →
    step (s.withFetchWord 16 w.toNat) = exec i (s.withFetchWord 16 w.toNat)

/-- An undecoded word, SYS included, changes nothing but `pc <- (pc + 2) mod 4096` (R70, R175). -/
def Obligations.UndecodedWordOnlyAdvances : Prop :=
  ∀ (s : State) (w : Word), s.waitPending = false → Fetches s w →
    ((∃ e, decodeWord w = .error e) ∨ ∃ nnn, decodeWord w = .ok (.sys nnn)) →
    ∃ t, step s = .next t ∧ Advanced 2 s t ∧ OnlyChanges [.pc] s t

/-- While a key-wait is pending `step` changes nothing; the only events that end the wait are `reset` and `key_down` with a
key in 0..15, and both end it (R88, R185). -/
def Obligations.PendingWaitStallsUntilKeyOrReset : Prop :=
  ∀ s : State, s.waitPending = true →
    step s = .next s ∧
    ∀ e : Event, ∃ t, applyEvent e s = .next t ∧
      (t.waitPending = false ↔ e = .reset ∨ ∃ k : Int, 0 ≤ k ∧ k ≤ 15 ∧ e = .keyDown k)

/-- No event, `step` included, ends in a fault or a refusal, in any state and in any sequence (R170). -/
def Obligations.NothingFaults : Prop :=
  ∀ (es : List Event) (s : State), (∃ t, step s = .next t) ∧ ∃ t, runEvents es s = .next t

/-! Invariants and reset (10_state.md) -/

/-- The invariant of R25, with the canonical form of memory, is kept by every step, from every state. That no stack cell
exceeds 0xFFF the spec marks as derived; the canonical list is the model's form of memory (assumption log 24). -/
def Obligations.InvariantKeptByStep : Prop :=
  ∀ s t : State, StateInv s → step s = .next t → StateInv t

/-- The invariant holds at the state after `create`, whatever the straps and the parameters, and at `State.reset` (R25,
R28). Its clause on memory, the canonical list, is the model's choice (assumption log 24). -/
def Obligations.InvariantHoldsAtReset : Prop :=
  StateInv State.reset ∧ ∀ (q : Quirks) (p : Params) (rng : Bool), StateInv (State.create q p rng)

/-- The invariant is kept by every sequence of events (R25: "After every event the following hold"). Its clause on memory,
the canonical list, is the model's choice (assumption log 24); that no stack cell exceeds 0xFFF the spec marks as derived.
-/
def Obligations.InvariantKeptByEvents : Prop :=
  ∀ (es : List Event) (s t : State), StateInv s → runEvents es s = .next t → StateInv t

/-- For every `FONT`, after `create` and after `reset` from any state every element has the value of the table of R28;
`create` sets the straps, the parameters and the presence of a random source, `reset` keeps them (R28). Font, straps and
target after reset are the spec's decisions (assumption log 13, 14, 16). -/
def Obligations.CreateAndResetLeaveResetValues : Prop :=
  (∀ (q : Quirks) (p : Params) (rng : Bool), AtResetValues (State.create q p rng) ∧ (State.create q p rng).quirks = q ∧
    (State.create q p rng).rngPresent = rng ∧ (State.create q p rng).params = p) ∧
  (State.reset.quirks.shiftUsesVy = false ∧ State.reset.quirks.memOpsIncrementI = true ∧
    State.reset.quirks.jumpWithOffsetUsesVx0 = false) ∧
  ∀ s : State, AtResetValues (resetEvent s) ∧ (resetEvent s).quirks = s.quirks ∧
    (resetEvent s).rngPresent = s.rngPresent ∧ (resetEvent s).params = s.params

/-- No instruction and no sequence of events changes a strap (R27), a parameter of R7, `FONT` among them, or the presence
of a random source. That `reset` keeps them is the spec's decision (assumption log 14). -/
def Obligations.StrapsNeverChange : Prop :=
  (∀ (i : Instr) (s t : State), exec i s = .next t →
    t.quirks = s.quirks ∧ t.params = s.params ∧ t.rngPresent = s.rngPresent) ∧
  ∀ (es : List Event) (s t : State), runEvents es s = .next t →
    t.quirks = s.quirks ∧ t.params = s.params ∧ t.rngPresent = s.rngPresent

/-! Who writes what, over all instructions -/

/-- No instruction but Fx33 and Fx55 changes a byte of memory (R46, R51). -/
def Obligations.OnlyStoresWriteMemory : Prop :=
  ∀ (i : Instr) (s t : State) (a : Nat), exec i s = .next t → t.readByte a ≠ s.readByte a →
    ∃ x, i = .ldBVx x ∨ i = .ldMemVx x

/-- Only CALL with room on the stack writes a stack cell, only CALL and RET move `sp`, by one, and each only within its bound
(R17). -/
def Obligations.OnlyCallAndRetMoveTheStack : Prop :=
  ∀ (i : Instr) (s t : State), exec i s = .next t →
    (t.stack ≠ s.stack → s.sp.val < 16 ∧ ∃ nnn, i = .call nnn) ∧
    (t.sp ≠ s.sp → (t.sp.val = s.sp.val + 1 ∧ s.sp.val < 16 ∧ ∃ nnn, i = .call nnn) ∨
      (t.sp.val + 1 = s.sp.val ∧ ∃ x, i = .ret x))

/-- Only CLS and DRW change a pixel, and no instruction changes a key latch (R22, R23). -/
def Obligations.OnlyClsAndDrwWriteDisplay : Prop :=
  ∀ (i : Instr) (s t : State), exec i s = .next t →
    t.keys = s.keys ∧ (t.disp ≠ s.disp → (∃ x, i = .cls x) ∨ ∃ x y n, i = .drw x y n)

/-- A general register changes only as the destination of one of the instructions R11 lists, or as VF where R12 says so. -/
def Obligations.RegistersWrittenOnlyAsListed : Prop :=
  ∀ (i : Instr) (s t : State) (r : Nibble), exec i s = .next t → t.reg r ≠ s.reg r → MayWriteReg i r

/-- `I`, the timers and the key-wait change only by the instructions R16, R18, R19 and R24 name, and only RND samples the
random source (R26; the count of samples is the model's own field, assumption log 3). -/
def Obligations.IndexTimersWaitWrittenOnlyAsListed : Prop :=
  ∀ (i : Instr) (s t : State), exec i s = .next t →
    (t.i ≠ s.i → (∃ nnn, i = .ldI nnn) ∨ (∃ x, i = .addIVx x ∨ i = .ldFVx x) ∨
      (s.quirks.memOpsIncrementI = true ∧ ∃ x, i = .ldMemVx x ∨ i = .ldVxMem x)) ∧
    (t.dt ≠ s.dt → ∃ x, i = .ldDTVx x) ∧ (t.st ≠ s.st → ∃ x, i = .ldSTVx x) ∧
    (t.waitPending ≠ s.waitPending ∨ t.waitTarget ≠ s.waitTarget → ∃ x, i = .ldVxK x) ∧
    (t.rngDraws ≠ s.rngDraws → ∃ x kk, i = .rnd x kk)

/-- No instruction reads `ST` (R19): two states that differ only in `ST` execute to two states that differ only in `ST`. -/
def Obligations.SoundTimerIsNeverRead : Prop :=
  ∀ (i : Instr) (s t : State) (b : Byte), exec i s = .next t →
    ∃ c : Byte, exec i (s.setST b) = .next (t.setST c) ∧ ((∀ x, i ≠ .ldSTVx x) → c = b)

/-! Control flow (41_control_flow.md) -/

/-- SYS nnn: the advance and nothing else (R100). -/
def Obligations.SysOnlyAdvances : Prop :=
  ∀ (nnn : Addr) (s : State), (nnn.toNat % 256 ≠ 0xE0 → nnn.toNat % 256 ≠ 0xEE → EncodedAs (.sys nnn) nnn.toNat) ∧
    ∃ t, exec (.sys nnn) s = .next t ∧ Advanced 2 s t ∧ OnlyChanges [.pc] s t

/-- RET pops the return address and jumps to it, the vacated cell keeping its value; with an empty stack nothing changes
(R101). That x is ignored (D8, assumption log 11) and that the vacated cell keeps its value (D22, assumption log 16) are
the spec's own decisions. -/
def Obligations.RetPopsAndJumps : Prop :=
  ∀ (x : Nibble) (s : State), EncodedAs (.ret x) (0x00EE + 256 * x.toNat) ∧
    ∃ t, exec (.ret x) s = .next t ∧ OnlyChanges [.pc, .stack] s t ∧ t.stack = s.stack ∧
    (∀ k : Fin 16, s.sp.val = k.val + 1 → t.sp.val = k.val ∧ t.pc.toNat = (s.stack[k.val]).toNat % 4096) ∧
    (s.sp.val = 0 → t = s)

/-- JP nnn sets `pc` to nnn (R102). -/
def Obligations.JpSetsPc : Prop :=
  ∀ (nnn : Addr) (s : State), EncodedAs (.jp nnn) (0x1000 + nnn.toNat) ∧
    ∃ t, exec (.jp nnn) s = .next t ∧ t.pc.toNat = nnn.toNat ∧ OnlyChanges [.pc] s t

/-- CALL nnn pushes `(A + 2) mod 4096` and jumps; with a full stack nothing changes (R103). The value pushed is the spec's
decision (assumption log 7). -/
def Obligations.CallPushesReturnAddress : Prop :=
  ∀ (nnn : Addr) (s : State), EncodedAs (.call nnn) (0x2000 + nnn.toNat) ∧
    ∃ t, exec (.call nnn) s = .next t ∧ OnlyChanges [.pc, .stack] s t ∧
    (∀ k : Fin 16, s.sp.val = k.val → t.sp.val = k.val + 1 ∧ t.pc.toNat = nnn.toNat ∧
      (t.stack[k.val]).toNat = (s.pc.toNat + 2) % 4096 ∧ ∀ j : Fin 16, j ≠ k → t.stack[j.val] = s.stack[j.val]) ∧
    (s.sp.val = 16 → t = s)

/-- SE Vx, kk and SNE Vx, kk (R104, R105). Which of the two tests equality is the spec's pairing (assumption log 10). -/
def Obligations.SkipOnImmediate : Prop :=
  ∀ (x : Nibble) (kk : Byte) (s : State),
    EncodedAs (.seImm x kk) (0x3000 + 256 * x.toNat + kk.toNat) ∧
    EncodedAs (.sneImm x kk) (0x4000 + 256 * x.toNat + kk.toNat) ∧
    (∃ t, exec (.seImm x kk) s = .next t ∧ Skipped (s.reg x = kk) s t ∧ OnlyChanges [.pc] s t) ∧
    ∃ t, exec (.sneImm x kk) s = .next t ∧ Skipped (s.reg x ≠ kk) s t ∧ OnlyChanges [.pc] s t

/-- SE Vx, Vy and SNE Vx, Vy, whatever the ignored nibble (R106, R107). Which of the two tests equality, and that n is
ignored, are the spec's decisions (assumption log 10 and 11). -/
def Obligations.SkipOnRegisters : Prop :=
  ∀ (x y n : Nibble) (s : State),
    EncodedAs (.seReg x y n) (0x5000 + 256 * x.toNat + 16 * y.toNat + n.toNat) ∧
    EncodedAs (.sneReg x y n) (0x9000 + 256 * x.toNat + 16 * y.toNat + n.toNat) ∧
    (∃ t, exec (.seReg x y n) s = .next t ∧ Skipped (s.reg x = s.reg y) s t ∧ OnlyChanges [.pc] s t) ∧
    ∃ t, exec (.sneReg x y n) s = .next t ∧ Skipped (s.reg x ≠ s.reg y) s t ∧ OnlyChanges [.pc] s t

/-- JP V0, nnn adds `V[0]`, or under the strap the register the top nibble of nnn names, modulo 4096 (R109). The reduction
modulo 4096 is the spec's own decision (D3, assumption log 6). -/
def Obligations.JumpWithOffsetAddsRegister : Prop :=
  ∀ (nnn : Addr) (s : State), EncodedAs (.jpV0 nnn) (0xB000 + nnn.toNat) ∧
    ∃ t, exec (.jpV0 nnn) s = .next t ∧ OnlyChanges [.pc] s t ∧
    (s.quirks.jumpWithOffsetUsesVx0 = false → t.pc.toNat = (nnn.toNat + (s.reg 0#4).toNat) % 4096) ∧
    (s.quirks.jumpWithOffsetUsesVx0 = true →
      t.pc.toNat = (nnn.toNat + (s.reg (BitVec.ofNat 4 (nnn.toNat / 256))).toNat) % 4096)

/-- A CALL with room followed by a RET comes back to the instruction after the CALL with the stack's depth restored (R101,
R103, R110). That CALL pushes the next address is the spec's decision (assumption log 7). -/
def Obligations.CallThenRetReturns : Prop :=
  ∀ (nnn : Addr) (x : Nibble) (s t : State), s.sp.val < 16 → exec (.call nnn) s = .next t →
    ∃ u, exec (.ret x) t = .next u ∧ Advanced 2 s u ∧ u.sp = s.sp ∧ OnlyChanges [.pc, .stack] s u

/-- CALL on a full stack and RET on an empty one are absorbed and executed again by every later step, for ever (R174). -/
def Obligations.StackOverflowAndUnderflowSpin : Prop :=
  ∀ (s : State) (w : Word), s.waitPending = false → Fetches s w →
    ((s.sp.val = 16 ∧ ∃ nnn, decodeWord w = .ok (.call nnn)) ∨ (s.sp.val = 0 ∧ ∃ x, decodeWord w = .ok (.ret x))) →
    ∀ k : Nat, core.run k s = .next s

/-- A jump to itself is a fixed point of `step` (R102, R193). -/
def Obligations.JumpToItselfIsFixedPoint : Prop :=
  ∀ (s : State) (w : Word) (nnn : Addr), s.waitPending = false → Fetches s w → decodeWord w = .ok (.jp nnn) →
    s.pc.toNat = nnn.toNat → ∀ k : Nat, core.run k s = .next s

/-! Load, arithmetic, logic, shift, random (42_load_alu_random.md) -/

/-- LD Vx, kk (R120). -/
def Obligations.LoadImmediate : Prop :=
  ∀ (x : Nibble) (kk : Byte) (s : State), EncodedAs (.ldImm x kk) (0x6000 + 256 * x.toNat + kk.toNat) ∧
    ∃ t, exec (.ldImm x kk) s = .next t ∧
    WritesReg x kk.toNat s t ∧ Advanced 2 s t ∧ OnlyChanges [.regs, .pc] s t

/-- ADD Vx, kk wraps at 8 bits and writes no flag (R121). -/
def Obligations.AddImmediateWrapsWithoutFlag : Prop :=
  ∀ (x : Nibble) (kk : Byte) (s : State), EncodedAs (.addImm x kk) (0x7000 + 256 * x.toNat + kk.toNat) ∧
    ∃ t, exec (.addImm x kk) s = .next t ∧
    WritesReg x (((s.reg x).toNat + kk.toNat) % 256) s t ∧ Advanced 2 s t ∧ OnlyChanges [.regs, .pc] s t

/-- LD Vx, Vy copies `V[y]`, for `HAS_8XY0` true; for false the word is the undecoded no-op (R122, R7). That 8xy0 is this
instruction is the spec's decision (assumption log 9). -/
def Obligations.CopyRegister : Prop :=
  ∀ (x y : Nibble) (s : State), EncodedAs (.ldReg x y) (0x8000 + 256 * x.toNat + 16 * y.toNat) ∧
    ∃ t, exec (.ldReg x y) s = .next t ∧ Advanced 2 s t ∧
    (s.params.has8xy0 = true → WritesReg x (s.reg y).toNat s t ∧ OnlyChanges [.regs, .pc] s t) ∧
    (s.params.has8xy0 = false → OnlyChanges [.pc] s t)

/-- OR, AND and XOR write the result and then VF = 0 (R123, R124, R125). The code numbers, and the flag's being written
last, are the spec's decisions (assumption log 10 and 8). -/
def Obligations.LogicClearsFlag : Prop :=
  ∀ (x y : Nibble) (s : State),
    EncodedAs (.orReg x y) (0x8001 + 256 * x.toNat + 16 * y.toNat) ∧
    EncodedAs (.andReg x y) (0x8002 + 256 * x.toNat + 16 * y.toNat) ∧
    EncodedAs (.xorReg x y) (0x8003 + 256 * x.toNat + 16 * y.toNat) ∧
    (∃ t, exec (.orReg x y) s = .next t ∧ WritesRegFlag x ((s.reg x).toNat ||| (s.reg y).toNat) 0 s t ∧ Advanced 2 s t ∧
      OnlyChanges [.regs, .pc] s t) ∧
    (∃ t, exec (.andReg x y) s = .next t ∧ WritesRegFlag x ((s.reg x).toNat &&& (s.reg y).toNat) 0 s t ∧ Advanced 2 s t ∧
      OnlyChanges [.regs, .pc] s t) ∧
    ∃ t, exec (.xorReg x y) s = .next t ∧ WritesRegFlag x ((s.reg x).toNat ^^^ (s.reg y).toNat) 0 s t ∧ Advanced 2 s t ∧
      OnlyChanges [.regs, .pc] s t

/-- ADD Vx, Vy: the sum modulo 256, then VF = 1 iff the nine-bit sum exceeds 255 (R126). The code number, and the flag's
being written last, are the spec's decisions (assumption log 10 and 8). -/
def Obligations.AddSetsCarry : Prop :=
  ∀ (x y : Nibble) (s : State), EncodedAs (.addReg x y) (0x8004 + 256 * x.toNat + 16 * y.toNat) ∧
    ∃ t, exec (.addReg x y) s = .next t ∧
    WritesRegFlag x (((s.reg x).toNat + (s.reg y).toNat) % 256)
      (if (s.reg x).toNat + (s.reg y).toNat > 255 then 1 else 0) s t ∧ Advanced 2 s t ∧ OnlyChanges [.regs, .pc] s t

/-- SUB and SUBN: the difference modulo 256, then VF = 1 iff the minuend is strictly greater (R127, R131). The code
numbers, and the flag's being written last, are the spec's decisions (assumption log 10 and 8). -/
def Obligations.SubtractSetsNoBorrow : Prop :=
  ∀ (x y : Nibble) (s : State),
    EncodedAs (.subReg x y) (0x8005 + 256 * x.toNat + 16 * y.toNat) ∧
    EncodedAs (.subnReg x y) (0x8007 + 256 * x.toNat + 16 * y.toNat) ∧
    (∃ t, exec (.subReg x y) s = .next t ∧
      WritesRegFlag x (((s.reg x).toNat + 256 - (s.reg y).toNat) % 256)
        (if (s.reg x).toNat > (s.reg y).toNat then 1 else 0) s t ∧ Advanced 2 s t ∧ OnlyChanges [.regs, .pc] s t) ∧
    ∃ t, exec (.subnReg x y) s = .next t ∧
      WritesRegFlag x (((s.reg y).toNat + 256 - (s.reg x).toNat) % 256)
        (if (s.reg y).toNat > (s.reg x).toNat then 1 else 0) s t ∧ Advanced 2 s t ∧ OnlyChanges [.regs, .pc] s t

/-- SHR and SHL shift the strap's source by one place, then VF is the bit shifted out (R130, R132). The code numbers, and
the flag's being written last, are the spec's decisions (assumption log 10 and 8). -/
def Obligations.ShiftSetsShiftedOutBit : Prop :=
  ∀ (x y : Nibble) (s : State) (src : Byte), src = (if s.quirks.shiftUsesVy then s.reg y else s.reg x) →
    EncodedAs (.shrReg x y) (0x8006 + 256 * x.toNat + 16 * y.toNat) ∧
    EncodedAs (.shlReg x y) (0x800E + 256 * x.toNat + 16 * y.toNat) ∧
    (∃ t, exec (.shrReg x y) s = .next t ∧ WritesRegFlag x (src.toNat / 2) (src.toNat % 2) s t ∧ Advanced 2 s t ∧
      OnlyChanges [.regs, .pc] s t) ∧
    ∃ t, exec (.shlReg x y) s = .next t ∧ WritesRegFlag x (src.toNat * 2 % 256) (src.toNat / 128) s t ∧ Advanced 2 s t ∧
      OnlyChanges [.regs, .pc] s t

/-- RND Vx, kk: one sample of the source, the free value of assumption log 3, masked by kk; 0 without a source (R133, R26).
The count of samples is the model's own field. -/
def Obligations.RandomIsOneMaskedDraw : Prop :=
  ∀ (x : Nibble) (kk : Byte) (s : State), EncodedAs (.rnd x kk) (0xC000 + 256 * x.toNat + kk.toNat) ∧
    ∃ t, exec (.rnd x kk) s = .next t ∧ Advanced 2 s t ∧
    OnlyChanges [.regs, .draws, .pc] s t ∧
    (s.rngPresent = true → WritesReg x ((Config.randomByte s.rngDraws).toNat &&& kk.toNat) s t ∧
      t.rngDraws = s.rngDraws + 1) ∧
    (s.rngPresent = false → WritesReg x 0 s t ∧ t.rngDraws = s.rngDraws)

/-! Index register and memory (43_index_memory.md, 20_memory.md) -/

/-- LD I, nnn; ADD I, Vx; LD F, Vx (R140, R141, R142). -/
def Obligations.IndexRegisterForms : Prop :=
  (∀ (nnn : Addr) (s : State), EncodedAs (.ldI nnn) (0xA000 + nnn.toNat) ∧
    ∃ t, exec (.ldI nnn) s = .next t ∧ t.i.toNat = nnn.toNat ∧ Advanced 2 s t ∧ OnlyChanges [.index, .pc] s t) ∧
  ∀ (x : Nibble) (s : State),
    EncodedAs (.addIVx x) (0xF01E + 256 * x.toNat) ∧ EncodedAs (.ldFVx x) (0xF029 + 256 * x.toNat) ∧
    (∃ t, exec (.addIVx x) s = .next t ∧ t.i.toNat = (s.i.toNat + (s.reg x).toNat) % 65536 ∧ Advanced 2 s t ∧
      OnlyChanges [.index, .pc] s t) ∧
    ∃ t, exec (.ldFVx x) s = .next t ∧ t.i.toNat = 0x050 + 5 * ((s.reg x).toNat % 16) ∧ Advanced 2 s t ∧
      OnlyChanges [.index, .pc] s t

/-- LD B, Vx stores the three decimal digits at I, I + 1, I + 2, each address modulo 4096, and every other byte reads as
before (R143, R146). The wrap of an address above 0xFFF is the spec's own decision (D2, assumption log 5). -/
def Obligations.BcdStoresDigits : Prop :=
  ∀ (x : Nibble) (s : State), s.memWf = true → EncodedAs (.ldBVx x) (0xF033 + 256 * x.toNat) ∧
    ∃ t, exec (.ldBVx x) s = .next t ∧ Advanced 2 s t ∧
    OnlyChanges [.mem, .pc] s t ∧
    (t.readByte s.i.toNat).toNat = (s.reg x).toNat / 100 ∧
    (t.readByte (s.i.toNat + 1)).toNat = (s.reg x).toNat / 10 % 10 ∧
    (t.readByte (s.i.toNat + 2)).toNat = (s.reg x).toNat % 10 ∧
    ∀ a : Nat, (∀ k : Nat, k < 3 → a % 4096 ≠ (s.i.toNat + k) % 4096) → t.readByte a = s.readByte a

/-- LD [I], Vx stores V0..Vx at I + i, each address modulo 4096; every other byte reads as before; I advances by x + 1
under the strap (R144, R146). The wrap of an address above 0xFFF is the spec's own decision (D2, assumption log 5). -/
def Obligations.BlockStoreWritesRegisters : Prop :=
  ∀ (x : Nibble) (s : State), s.memWf = true → EncodedAs (.ldMemVx x) (0xF055 + 256 * x.toNat) ∧
    ∃ t, exec (.ldMemVx x) s = .next t ∧ Advanced 2 s t ∧
    OnlyChanges [.mem, .index, .pc] s t ∧
    (∀ r : Nibble, r.toNat ≤ x.toNat → t.readByte (s.i.toNat + r.toNat) = s.reg r) ∧
    (∀ a : Nat, (∀ k : Nat, k ≤ x.toNat → a % 4096 ≠ (s.i.toNat + k) % 4096) → t.readByte a = s.readByte a) ∧
    (s.quirks.memOpsIncrementI = true → t.i.toNat = (s.i.toNat + x.toNat + 1) % 65536) ∧
    (s.quirks.memOpsIncrementI = false → t.i = s.i)

/-- LD Vx, [I] loads V0..Vx from I + i, each address modulo 4096; every other register keeps its value; I advances by x +
1 under the strap (R145, R146). The wrap of an address above 0xFFF is the spec's own decision (D2, assumption log 5). -/
def Obligations.BlockLoadReadsMemory : Prop :=
  ∀ (x : Nibble) (s : State), EncodedAs (.ldVxMem x) (0xF065 + 256 * x.toNat) ∧
    ∃ t, exec (.ldVxMem x) s = .next t ∧ Advanced 2 s t ∧
    OnlyChanges [.regs, .index, .pc] s t ∧
    (∀ r : Nibble, r.toNat ≤ x.toNat → t.reg r = s.readByte ((s.i.toNat + r.toNat) % 4096)) ∧
    (∀ r : Nibble, x.toNat < r.toNat → t.reg r = s.reg r) ∧
    (s.quirks.memOpsIncrementI = true → t.i.toNat = (s.i.toNat + x.toNat + 1) % 65536) ∧
    (s.quirks.memOpsIncrementI = false → t.i = s.i)

/-- An instruction word that a block store writes is fetched by the next step if `pc` points at it (R50, R195). -/
def Obligations.StoredWordIsFetchedNext : Prop :=
  ∀ (x k : Nibble) (s t : State) (w : Word), s.memWf = true → exec (.ldMemVx x) s = .next t → k.toNat < x.toNat →
    t.pc.toNat % 4096 = (s.i.toNat + k.toNat) % 4096 →
    w.toNat = 256 * (s.reg k).toNat + (s.reg (k + 1#4)).toNat → Fetches t w

/-! Display (44_display.md) -/

/-- CLS clears every pixel and the display hash is then 0xD2063DC5 (R150, R94). That x is ignored is the spec's own
decision (D8, assumption log 11); the constant the spec marks as derived (assumption log 19). -/
def Obligations.ClsClearsDisplay : Prop :=
  ∀ (x : Nibble) (s : State), EncodedAs (.cls x) (0x00E0 + 256 * x.toNat) ∧
    ∃ t, exec (.cls x) s = .next t ∧ Advanced 2 s t ∧ OnlyChanges [.disp, .pc] s t ∧
    (∀ py px, t.pixel py px = false) ∧ displayHash t = 0xD2063DC5#32

/-- DRW: exactly the pixels a lit sprite bit lands on are flipped, rows clipped and columns wrapped, bit 7 leftmost; VF is
1 iff one of them was lit, read before the flag is written (R151, R152). Which bit is leftmost, the wrap of addresses and
the flag's being written last are the spec's decisions (assumption log 12, 5, 8). -/
def Obligations.DrawFlipsExactlySpritePixels : Prop :=
  ∀ (x y n : Nibble) (s : State), EncodedAs (.drw x y n) (0xD000 + 256 * x.toNat + 16 * y.toNat + n.toNat) ∧
    ∃ t, exec (.drw x y n) s = .next t ∧ Advanced 2 s t ∧
    OnlyChanges [.regs, .disp, .pc] s t ∧ (∀ r : Nibble, r ≠ 15#4 → t.reg r = s.reg r) ∧
    (∀ py px, SpriteLit s x y n py px → t.pixel py px = !s.pixel py px) ∧
    (∀ py px, ¬SpriteLit s x y n py px → t.pixel py px = s.pixel py px) ∧
    ((∃ py px, SpriteLit s x y n py px ∧ s.pixel py px = true) → t.reg 15#4 = 1#8) ∧
    ((¬∃ py px, SpriteLit s x y n py px ∧ s.pixel py px = true) → t.reg 15#4 = 0#8)

/-- Drawing the same sprite twice at the same position restores the display, and VF then says whether the first draw lit a
pixel (95_test_vectors.md S3, from R151). -/
def Obligations.DrawTwiceRestoresDisplay : Prop :=
  ∀ (x y n : Nibble) (s t : State), exec (.drw x y n) s = .next t → t.reg x = s.reg x → t.reg y = s.reg y →
    ∃ u, exec (.drw x y n) t = .next u ∧ u.disp = s.disp ∧
      (u.reg 15#4 = 1#8 ↔ ∃ py px, SpriteLit s x y n py px ∧ s.pixel py px = false)

/-! Keys and timers (45_keys_timers.md) -/

/-- SKP Vx and SKNP Vx test the latch of the key in the low nibble of `V[x]` (R160, R161). Which of the two tests a
pressed key is the spec's pairing (assumption log 10). -/
def Obligations.SkipOnKey : Prop :=
  ∀ (x : Nibble) (s : State) (k : Nibble), k.toNat = (s.reg x).toNat % 16 →
    EncodedAs (.skp x) (0xE09E + 256 * x.toNat) ∧ EncodedAs (.sknp x) (0xE0A1 + 256 * x.toNat) ∧
    (∃ t, exec (.skp x) s = .next t ∧ Skipped (s.key k = true) s t ∧ OnlyChanges [.pc] s t) ∧
    ∃ t, exec (.sknp x) s = .next t ∧ Skipped (s.key k = false) s t ∧ OnlyChanges [.pc] s t

/-- LD Vx, DT; LD DT, Vx; LD ST, Vx are direct copies (R162, R164, R165). Which code does which copy is the spec's pairing
(assumption log 10). -/
def Obligations.TimerCopies : Prop :=
  ∀ (x : Nibble) (s : State),
    EncodedAs (.ldVxDT x) (0xF007 + 256 * x.toNat) ∧ EncodedAs (.ldDTVx x) (0xF015 + 256 * x.toNat) ∧
    EncodedAs (.ldSTVx x) (0xF018 + 256 * x.toNat) ∧
    (∃ t, exec (.ldVxDT x) s = .next t ∧ WritesReg x s.dt.toNat s t ∧ Advanced 2 s t ∧ OnlyChanges [.regs, .pc] s t) ∧
    (∃ t, exec (.ldDTVx x) s = .next t ∧ t.dt = s.reg x ∧ Advanced 2 s t ∧ OnlyChanges [.delay, .pc] s t) ∧
    ∃ t, exec (.ldSTVx x) s = .next t ∧ t.st = s.reg x ∧ Advanced 2 s t ∧ OnlyChanges [.sound, .pc] s t

/-- LD Vx, K arms the wait with target x and leaves `pc` and everything else (R163). -/
def Obligations.WaitForKeyArms : Prop :=
  ∀ (x : Nibble) (s : State), EncodedAs (.ldVxK x) (0xF00A + 256 * x.toNat) ∧
    ∃ t, exec (.ldVxK x) s = .next t ∧ t.waitPending = true ∧ t.waitTarget = x ∧
    OnlyChanges [.wait] s t

/-- The key-wait scenario: after Fx0A any number of steps changes nothing; `key_down` of a valid key then writes it to
`V[x]`, ends the wait and leaves `pc` at A, or at A + 2 under `KEYWAIT_ADVANCE` = 2 (R163, R85, S8). The advance is a
parameter of the spec (assumption log 15). -/
def Obligations.KeyWaitResolvedByKeyDown : Prop :=
  ∀ (x k : Nibble) (s t : State), StateInv s → exec (.ldVxK x) s = .next t →
    (∀ n : Nat, core.run n t = .next t) ∧
    ((keyDown k.toNat t).reg x).toNat = k.toNat ∧ (keyDown k.toNat t).waitPending = false ∧
    (s.params.keywaitAdvance = .zero → (keyDown k.toNat t).pc = s.pc) ∧
    (s.params.keywaitAdvance = .two → Advanced 2 s (keyDown k.toNat t))

/-! The events of the environment (40_cycle_and_host_ops.md) -/

/-- `load_program`: failure without any change exactly for a non-empty program with `0x200 + L > 4096`; else the bytes lie
from 0x200 on, `pc` is 0x200, and nothing else changes (R83). That nothing else changes the spec marks as derived
(assumption log 18). -/
def Obligations.LoadProgramCopiesOrFails : Prop :=
  ∀ (bytes : List Byte) (s : State), s.memWf = true →
    (0 < bytes.length ∧ 0x200 + bytes.length > 4096 → loadProgram bytes s = (.failure, s)) ∧
    (¬(0 < bytes.length ∧ 0x200 + bytes.length > 4096) →
      (loadProgram bytes s).1 = .success ∧ (loadProgram bytes s).2.pc.toNat = 0x200 ∧
      OnlyChanges [.mem, .pc] s (loadProgram bytes s).2 ∧
      (∀ (k : Nat) (b : Byte), bytes[k]? = some b → (loadProgram bytes s).2.readByte (0x200 + k) = b) ∧
      ∀ a : Nat, a < 4096 → (a < 0x200 ∨ 0x200 + bytes.length ≤ a) → (loadProgram bytes s).2.readByte a = s.readByte a)

/-- `tick_timers` decrements both timers independently, floored at 0, and n ticks take n from each (R84). -/
def Obligations.TicksCountDownToZero : Prop :=
  ∀ (s : State) (n : Nat), ∃ t, runEvents (List.replicate n .tickTimers) s = .next t ∧ t.dt.toNat = s.dt.toNat - n ∧
    t.st.toNat = s.st.toNat - n ∧ OnlyChanges [.delay, .sound] s t

/-- `key_down(k)`: ignored outside 0..15; else the latch is set, whatever it was, and a pending wait is resolved:
`V[target]` is k, the wait is over, and `pc` advances by `KEYWAIT_ADVANCE` (R85). The latch, and the resolution whatever
the latch was, the spec marks as derived (assumption log 17); the advance is its parameter (assumption log 15). -/
def Obligations.KeyDownSetsLatchAndResolvesWait : Prop :=
  ∀ (k : Int) (s : State),
    (k < 0 ∨ k > 15 → keyDown k s = s) ∧
    ∀ n : Nibble, k = n.toNat →
      (keyDown k s).key n = true ∧ (∀ j : Nibble, j ≠ n → (keyDown k s).key j = s.key j) ∧
      (s.waitPending = false → OnlyChanges [.keys] s (keyDown k s)) ∧
      (s.waitPending = true → WritesReg s.waitTarget n.toNat s (keyDown k s) ∧ (keyDown k s).waitPending = false ∧
        (s.params.keywaitAdvance = .zero → Advanced 0 s (keyDown k s)) ∧
        (s.params.keywaitAdvance = .two → Advanced 2 s (keyDown k s)) ∧
        OnlyChanges [.keys, .regs, .wait, .pc] s (keyDown k s))

/-- `key_up(k)`: ignored outside 0..15; else the latch is cleared and nothing else changes, a pending wait included (R86).
That `key_up` clears the latch the spec marks as derived (R23, D15, assumption log 17). -/
def Obligations.KeyUpClearsLatchOnly : Prop :=
  ∀ (k : Int) (s : State),
    (k < 0 ∨ k > 15 → keyUp k s = s) ∧
    ∀ n : Nibble, k = n.toNat →
      (keyUp k s).key n = false ∧ (∀ j : Nibble, j ≠ n → (keyUp k s).key j = s.key j) ∧ OnlyChanges [.keys] s (keyUp k s)

/-- `framebuffer()` is 2048 bytes, each 0 or 1, element `64*y + x` being `disp[y][x]` (R92). -/
def Obligations.FramebufferIsRowMajor : Prop :=
  ∀ s : State, (framebuffer s).length = 2048 ∧
    ∀ (y : Fin 32) (x : Fin 64), (framebuffer s)[64 * y.val + x.val]? = some (if s.pixel y x then 1#8 else 0#8)

/-- The display hash is the FNV-1a fold over the pixels in row-major order, 0xD2063DC5 for the cleared display (R94). The
constant the spec marks as derived from the rule (assumption log 19). -/
def Obligations.DisplayHashIsFnvFold : Prop :=
  (∀ s : State, (displayHash s).toNat = (List.range 2048).foldl (fun h idx =>
    (h ^^^ (if s.pixel (Fin.ofNat 32 (idx / 64)) (Fin.ofNat 64 (idx % 64)) then 1 else 0)) * 0x01000193 % 2 ^ 32)
    0x811C9DC5) ∧
  ∀ s : State, (∀ y x, s.pixel y x = false) → displayHash s = 0xD2063DC5#32

/-- `snapshot()` reports the named elements, and the top of the stack or 0 if it is empty (R93). -/
def Obligations.SnapshotReportsState : Prop :=
  ∀ s : State, (snapshot s).pc = s.pc ∧ (snapshot s).i = s.i ∧ (∀ r : Nibble, (snapshot s).v[r.toNat] = s.reg r) ∧
    (snapshot s).delayTimer = s.dt ∧ (snapshot s).soundTimer = s.st ∧ (snapshot s).stackDepth = s.sp ∧
    (s.sp.val = 0 → (snapshot s).stackTop = 0#16) ∧
    (∀ k : Fin 16, s.sp.val = k.val + 1 → (snapshot s).stackTop = s.stack[k.val]) ∧
    (snapshot s).displayHash = displayHash s

/-! The font table (10_state.md) -/

/-- For every `FONT`: wherever the font is in place, as it is after `create` and after `reset`, LD F, Vx and then LD V4,
[I] load the five bytes of the glyph that the low nibble of `V[x]` selects (R21, R142, R145). That `reset` restores the
font is the spec's decision (assumption log 13). -/
def Obligations.GlyphIsReadFromFont : Prop :=
  (∀ (q : Quirks) (p : Params) (rng : Bool), FontInPlace (State.create q p rng)) ∧ (∀ s : State, FontInPlace (resetEvent s)) ∧
  ∀ (x : Nibble) (s : State), FontInPlace s → ∃ t u, exec (.ldFVx x) s = .next t ∧ exec (.ldVxMem 4#4) t = .next u ∧
    ∀ (r : Nibble) (k : Fin 80), r.toNat < 5 → k.val = 5 * ((s.reg x).toNat % 16) + r.toNat → u.reg r = s.params.font[k.val]
end

