-- ==== Sys2Proof/Laws/State.lean ====
section
/-! SUPPORT. One lemma per field, and per read, for each update of the state: no later proof unfolds a record update. -/

namespace Sys2Proof.Machine

variable (s : State)

/-! `State.setReg` -/

@[simp] theorem State.setReg_v (x : Nibble) (b : Byte) : (s.setReg x b).v = s.v.set x.toNat b x.isLt := rfl
@[simp] theorem State.setReg_i (x : Nibble) (b : Byte) : (s.setReg x b).i = s.i := rfl
@[simp] theorem State.setReg_pc (x : Nibble) (b : Byte) : (s.setReg x b).pc = s.pc := rfl
@[simp] theorem State.setReg_stack (x : Nibble) (b : Byte) : (s.setReg x b).stack = s.stack := rfl
@[simp] theorem State.setReg_sp (x : Nibble) (b : Byte) : (s.setReg x b).sp = s.sp := rfl
@[simp] theorem State.setReg_dt (x : Nibble) (b : Byte) : (s.setReg x b).dt = s.dt := rfl
@[simp] theorem State.setReg_st (x : Nibble) (b : Byte) : (s.setReg x b).st = s.st := rfl
@[simp] theorem State.setReg_disp (x : Nibble) (b : Byte) : (s.setReg x b).disp = s.disp := rfl
@[simp] theorem State.setReg_keys (x : Nibble) (b : Byte) : (s.setReg x b).keys = s.keys := rfl
@[simp] theorem State.setReg_waitPending (x : Nibble) (b : Byte) : (s.setReg x b).waitPending = s.waitPending := rfl
@[simp] theorem State.setReg_waitTarget (x : Nibble) (b : Byte) : (s.setReg x b).waitTarget = s.waitTarget := rfl
@[simp] theorem State.setReg_quirks (x : Nibble) (b : Byte) : (s.setReg x b).quirks = s.quirks := rfl
@[simp] theorem State.setReg_rngPresent (x : Nibble) (b : Byte) : (s.setReg x b).rngPresent = s.rngPresent := rfl
@[simp] theorem State.setReg_rngDraws (x : Nibble) (b : Byte) : (s.setReg x b).rngDraws = s.rngDraws := rfl
@[simp] theorem State.setReg_params (x : Nibble) (b : Byte) : (s.setReg x b).params = s.params := rfl
@[simp] theorem State.setReg_mem (x : Nibble) (b : Byte) : (s.setReg x b).mem = s.mem := rfl
@[simp] theorem State.setReg_readByte (x : Nibble) (b : Byte) (c : Nat) : (s.setReg x b).readByte c = s.readByte c := rfl
@[simp] theorem State.setReg_key (x : Nibble) (b : Byte) (j : Nibble) : (s.setReg x b).key j = s.key j := rfl
@[simp] theorem State.setReg_pixel (x : Nibble) (b : Byte) (py : Fin 32) (px : Fin 64) : (s.setReg x b).pixel py px = s.pixel py px := rfl
@[simp] theorem State.setReg_memWf (x : Nibble) (b : Byte) : (s.setReg x b).memWf = s.memWf := rfl

/-! `State.setI` -/

@[simp] theorem State.setI_v (w : Word) : (s.setI w).v = s.v := rfl
@[simp] theorem State.setI_i (w : Word) : (s.setI w).i = w := rfl
@[simp] theorem State.setI_pc (w : Word) : (s.setI w).pc = s.pc := rfl
@[simp] theorem State.setI_stack (w : Word) : (s.setI w).stack = s.stack := rfl
@[simp] theorem State.setI_sp (w : Word) : (s.setI w).sp = s.sp := rfl
@[simp] theorem State.setI_dt (w : Word) : (s.setI w).dt = s.dt := rfl
@[simp] theorem State.setI_st (w : Word) : (s.setI w).st = s.st := rfl
@[simp] theorem State.setI_disp (w : Word) : (s.setI w).disp = s.disp := rfl
@[simp] theorem State.setI_keys (w : Word) : (s.setI w).keys = s.keys := rfl
@[simp] theorem State.setI_waitPending (w : Word) : (s.setI w).waitPending = s.waitPending := rfl
@[simp] theorem State.setI_waitTarget (w : Word) : (s.setI w).waitTarget = s.waitTarget := rfl
@[simp] theorem State.setI_quirks (w : Word) : (s.setI w).quirks = s.quirks := rfl
@[simp] theorem State.setI_rngPresent (w : Word) : (s.setI w).rngPresent = s.rngPresent := rfl
@[simp] theorem State.setI_rngDraws (w : Word) : (s.setI w).rngDraws = s.rngDraws := rfl
@[simp] theorem State.setI_params (w : Word) : (s.setI w).params = s.params := rfl
@[simp] theorem State.setI_mem (w : Word) : (s.setI w).mem = s.mem := rfl
@[simp] theorem State.setI_reg (w : Word) (r : Nibble) : (s.setI w).reg r = s.reg r := rfl
@[simp] theorem State.setI_readByte (w : Word) (c : Nat) : (s.setI w).readByte c = s.readByte c := rfl
@[simp] theorem State.setI_key (w : Word) (j : Nibble) : (s.setI w).key j = s.key j := rfl
@[simp] theorem State.setI_pixel (w : Word) (py : Fin 32) (px : Fin 64) : (s.setI w).pixel py px = s.pixel py px := rfl
@[simp] theorem State.setI_memWf (w : Word) : (s.setI w).memWf = s.memWf := rfl

/-! `State.setDT` -/

@[simp] theorem State.setDT_v (b : Byte) : (s.setDT b).v = s.v := rfl
@[simp] theorem State.setDT_i (b : Byte) : (s.setDT b).i = s.i := rfl
@[simp] theorem State.setDT_pc (b : Byte) : (s.setDT b).pc = s.pc := rfl
@[simp] theorem State.setDT_stack (b : Byte) : (s.setDT b).stack = s.stack := rfl
@[simp] theorem State.setDT_sp (b : Byte) : (s.setDT b).sp = s.sp := rfl
@[simp] theorem State.setDT_dt (b : Byte) : (s.setDT b).dt = b := rfl
@[simp] theorem State.setDT_st (b : Byte) : (s.setDT b).st = s.st := rfl
@[simp] theorem State.setDT_disp (b : Byte) : (s.setDT b).disp = s.disp := rfl
@[simp] theorem State.setDT_keys (b : Byte) : (s.setDT b).keys = s.keys := rfl
@[simp] theorem State.setDT_waitPending (b : Byte) : (s.setDT b).waitPending = s.waitPending := rfl
@[simp] theorem State.setDT_waitTarget (b : Byte) : (s.setDT b).waitTarget = s.waitTarget := rfl
@[simp] theorem State.setDT_quirks (b : Byte) : (s.setDT b).quirks = s.quirks := rfl
@[simp] theorem State.setDT_rngPresent (b : Byte) : (s.setDT b).rngPresent = s.rngPresent := rfl
@[simp] theorem State.setDT_rngDraws (b : Byte) : (s.setDT b).rngDraws = s.rngDraws := rfl
@[simp] theorem State.setDT_params (b : Byte) : (s.setDT b).params = s.params := rfl
@[simp] theorem State.setDT_mem (b : Byte) : (s.setDT b).mem = s.mem := rfl
@[simp] theorem State.setDT_reg (b : Byte) (r : Nibble) : (s.setDT b).reg r = s.reg r := rfl
@[simp] theorem State.setDT_readByte (b : Byte) (c : Nat) : (s.setDT b).readByte c = s.readByte c := rfl
@[simp] theorem State.setDT_key (b : Byte) (j : Nibble) : (s.setDT b).key j = s.key j := rfl
@[simp] theorem State.setDT_pixel (b : Byte) (py : Fin 32) (px : Fin 64) : (s.setDT b).pixel py px = s.pixel py px := rfl
@[simp] theorem State.setDT_memWf (b : Byte) : (s.setDT b).memWf = s.memWf := rfl

/-! `State.setST` -/

@[simp] theorem State.setST_v (b : Byte) : (s.setST b).v = s.v := rfl
@[simp] theorem State.setST_i (b : Byte) : (s.setST b).i = s.i := rfl
@[simp] theorem State.setST_pc (b : Byte) : (s.setST b).pc = s.pc := rfl
@[simp] theorem State.setST_stack (b : Byte) : (s.setST b).stack = s.stack := rfl
@[simp] theorem State.setST_sp (b : Byte) : (s.setST b).sp = s.sp := rfl
@[simp] theorem State.setST_dt (b : Byte) : (s.setST b).dt = s.dt := rfl
@[simp] theorem State.setST_st (b : Byte) : (s.setST b).st = b := rfl
@[simp] theorem State.setST_disp (b : Byte) : (s.setST b).disp = s.disp := rfl
@[simp] theorem State.setST_keys (b : Byte) : (s.setST b).keys = s.keys := rfl
@[simp] theorem State.setST_waitPending (b : Byte) : (s.setST b).waitPending = s.waitPending := rfl
@[simp] theorem State.setST_waitTarget (b : Byte) : (s.setST b).waitTarget = s.waitTarget := rfl
@[simp] theorem State.setST_quirks (b : Byte) : (s.setST b).quirks = s.quirks := rfl
@[simp] theorem State.setST_rngPresent (b : Byte) : (s.setST b).rngPresent = s.rngPresent := rfl
@[simp] theorem State.setST_rngDraws (b : Byte) : (s.setST b).rngDraws = s.rngDraws := rfl
@[simp] theorem State.setST_params (b : Byte) : (s.setST b).params = s.params := rfl
@[simp] theorem State.setST_mem (b : Byte) : (s.setST b).mem = s.mem := rfl
@[simp] theorem State.setST_reg (b : Byte) (r : Nibble) : (s.setST b).reg r = s.reg r := rfl
@[simp] theorem State.setST_readByte (b : Byte) (c : Nat) : (s.setST b).readByte c = s.readByte c := rfl
@[simp] theorem State.setST_key (b : Byte) (j : Nibble) : (s.setST b).key j = s.key j := rfl
@[simp] theorem State.setST_pixel (b : Byte) (py : Fin 32) (px : Fin 64) : (s.setST b).pixel py px = s.pixel py px := rfl
@[simp] theorem State.setST_memWf (b : Byte) : (s.setST b).memWf = s.memWf := rfl

/-! `State.setPc` -/

@[simp] theorem State.setPc_v (n : Nat) : (s.setPc n).v = s.v := rfl
@[simp] theorem State.setPc_i (n : Nat) : (s.setPc n).i = s.i := rfl
@[simp] theorem State.setPc_pc (n : Nat) : (s.setPc n).pc = pcOfNat n := rfl
@[simp] theorem State.setPc_stack (n : Nat) : (s.setPc n).stack = s.stack := rfl
@[simp] theorem State.setPc_sp (n : Nat) : (s.setPc n).sp = s.sp := rfl
@[simp] theorem State.setPc_dt (n : Nat) : (s.setPc n).dt = s.dt := rfl
@[simp] theorem State.setPc_st (n : Nat) : (s.setPc n).st = s.st := rfl
@[simp] theorem State.setPc_disp (n : Nat) : (s.setPc n).disp = s.disp := rfl
@[simp] theorem State.setPc_keys (n : Nat) : (s.setPc n).keys = s.keys := rfl
@[simp] theorem State.setPc_waitPending (n : Nat) : (s.setPc n).waitPending = s.waitPending := rfl
@[simp] theorem State.setPc_waitTarget (n : Nat) : (s.setPc n).waitTarget = s.waitTarget := rfl
@[simp] theorem State.setPc_quirks (n : Nat) : (s.setPc n).quirks = s.quirks := rfl
@[simp] theorem State.setPc_rngPresent (n : Nat) : (s.setPc n).rngPresent = s.rngPresent := rfl
@[simp] theorem State.setPc_rngDraws (n : Nat) : (s.setPc n).rngDraws = s.rngDraws := rfl
@[simp] theorem State.setPc_params (n : Nat) : (s.setPc n).params = s.params := rfl
@[simp] theorem State.setPc_mem (n : Nat) : (s.setPc n).mem = s.mem := rfl
@[simp] theorem State.setPc_reg (n : Nat) (r : Nibble) : (s.setPc n).reg r = s.reg r := rfl
@[simp] theorem State.setPc_readByte (n : Nat) (c : Nat) : (s.setPc n).readByte c = s.readByte c := rfl
@[simp] theorem State.setPc_key (n : Nat) (j : Nibble) : (s.setPc n).key j = s.key j := rfl
@[simp] theorem State.setPc_pixel (n : Nat) (py : Fin 32) (px : Fin 64) : (s.setPc n).pixel py px = s.pixel py px := rfl
@[simp] theorem State.setPc_memWf (n : Nat) : (s.setPc n).memWf = s.memWf := rfl

/-! `State.setCell` -/

@[simp] theorem State.setCell_v (k : Fin 16) (w : Word) : (s.setCell k w).v = s.v := rfl
@[simp] theorem State.setCell_i (k : Fin 16) (w : Word) : (s.setCell k w).i = s.i := rfl
@[simp] theorem State.setCell_pc (k : Fin 16) (w : Word) : (s.setCell k w).pc = s.pc := rfl
@[simp] theorem State.setCell_stack (k : Fin 16) (w : Word) : (s.setCell k w).stack = s.stack.set k.val w k.isLt := rfl
@[simp] theorem State.setCell_sp (k : Fin 16) (w : Word) : (s.setCell k w).sp = s.sp := rfl
@[simp] theorem State.setCell_dt (k : Fin 16) (w : Word) : (s.setCell k w).dt = s.dt := rfl
@[simp] theorem State.setCell_st (k : Fin 16) (w : Word) : (s.setCell k w).st = s.st := rfl
@[simp] theorem State.setCell_disp (k : Fin 16) (w : Word) : (s.setCell k w).disp = s.disp := rfl
@[simp] theorem State.setCell_keys (k : Fin 16) (w : Word) : (s.setCell k w).keys = s.keys := rfl
@[simp] theorem State.setCell_waitPending (k : Fin 16) (w : Word) : (s.setCell k w).waitPending = s.waitPending := rfl
@[simp] theorem State.setCell_waitTarget (k : Fin 16) (w : Word) : (s.setCell k w).waitTarget = s.waitTarget := rfl
@[simp] theorem State.setCell_quirks (k : Fin 16) (w : Word) : (s.setCell k w).quirks = s.quirks := rfl
@[simp] theorem State.setCell_rngPresent (k : Fin 16) (w : Word) : (s.setCell k w).rngPresent = s.rngPresent := rfl
@[simp] theorem State.setCell_rngDraws (k : Fin 16) (w : Word) : (s.setCell k w).rngDraws = s.rngDraws := rfl
@[simp] theorem State.setCell_params (k : Fin 16) (w : Word) : (s.setCell k w).params = s.params := rfl
@[simp] theorem State.setCell_mem (k : Fin 16) (w : Word) : (s.setCell k w).mem = s.mem := rfl
@[simp] theorem State.setCell_reg (k : Fin 16) (w : Word) (r : Nibble) : (s.setCell k w).reg r = s.reg r := rfl
@[simp] theorem State.setCell_readByte (k : Fin 16) (w : Word) (c : Nat) : (s.setCell k w).readByte c = s.readByte c := rfl
@[simp] theorem State.setCell_key (k : Fin 16) (w : Word) (j : Nibble) : (s.setCell k w).key j = s.key j := rfl
@[simp] theorem State.setCell_pixel (k : Fin 16) (w : Word) (py : Fin 32) (px : Fin 64) : (s.setCell k w).pixel py px = s.pixel py px := rfl
@[simp] theorem State.setCell_memWf (k : Fin 16) (w : Word) : (s.setCell k w).memWf = s.memWf := rfl

/-! `State.setSp` -/

@[simp] theorem State.setSp_v (n : Fin 17) : (s.setSp n).v = s.v := rfl
@[simp] theorem State.setSp_i (n : Fin 17) : (s.setSp n).i = s.i := rfl
@[simp] theorem State.setSp_pc (n : Fin 17) : (s.setSp n).pc = s.pc := rfl
@[simp] theorem State.setSp_stack (n : Fin 17) : (s.setSp n).stack = s.stack := rfl
@[simp] theorem State.setSp_sp (n : Fin 17) : (s.setSp n).sp = n := rfl
@[simp] theorem State.setSp_dt (n : Fin 17) : (s.setSp n).dt = s.dt := rfl
@[simp] theorem State.setSp_st (n : Fin 17) : (s.setSp n).st = s.st := rfl
@[simp] theorem State.setSp_disp (n : Fin 17) : (s.setSp n).disp = s.disp := rfl
@[simp] theorem State.setSp_keys (n : Fin 17) : (s.setSp n).keys = s.keys := rfl
@[simp] theorem State.setSp_waitPending (n : Fin 17) : (s.setSp n).waitPending = s.waitPending := rfl
@[simp] theorem State.setSp_waitTarget (n : Fin 17) : (s.setSp n).waitTarget = s.waitTarget := rfl
@[simp] theorem State.setSp_quirks (n : Fin 17) : (s.setSp n).quirks = s.quirks := rfl
@[simp] theorem State.setSp_rngPresent (n : Fin 17) : (s.setSp n).rngPresent = s.rngPresent := rfl
@[simp] theorem State.setSp_rngDraws (n : Fin 17) : (s.setSp n).rngDraws = s.rngDraws := rfl
@[simp] theorem State.setSp_params (n : Fin 17) : (s.setSp n).params = s.params := rfl
@[simp] theorem State.setSp_mem (n : Fin 17) : (s.setSp n).mem = s.mem := rfl
@[simp] theorem State.setSp_reg (n : Fin 17) (r : Nibble) : (s.setSp n).reg r = s.reg r := rfl
@[simp] theorem State.setSp_readByte (n : Fin 17) (c : Nat) : (s.setSp n).readByte c = s.readByte c := rfl
@[simp] theorem State.setSp_key (n : Fin 17) (j : Nibble) : (s.setSp n).key j = s.key j := rfl
@[simp] theorem State.setSp_pixel (n : Fin 17) (py : Fin 32) (px : Fin 64) : (s.setSp n).pixel py px = s.pixel py px := rfl
@[simp] theorem State.setSp_memWf (n : Fin 17) : (s.setSp n).memWf = s.memWf := rfl

/-! `State.writeByte` -/

@[simp] theorem State.writeByte_v (a : Nat) (b : Byte) : (s.writeByte a b).v = s.v := rfl
@[simp] theorem State.writeByte_i (a : Nat) (b : Byte) : (s.writeByte a b).i = s.i := rfl
@[simp] theorem State.writeByte_pc (a : Nat) (b : Byte) : (s.writeByte a b).pc = s.pc := rfl
@[simp] theorem State.writeByte_stack (a : Nat) (b : Byte) : (s.writeByte a b).stack = s.stack := rfl
@[simp] theorem State.writeByte_sp (a : Nat) (b : Byte) : (s.writeByte a b).sp = s.sp := rfl
@[simp] theorem State.writeByte_dt (a : Nat) (b : Byte) : (s.writeByte a b).dt = s.dt := rfl
@[simp] theorem State.writeByte_st (a : Nat) (b : Byte) : (s.writeByte a b).st = s.st := rfl
@[simp] theorem State.writeByte_disp (a : Nat) (b : Byte) : (s.writeByte a b).disp = s.disp := rfl
@[simp] theorem State.writeByte_keys (a : Nat) (b : Byte) : (s.writeByte a b).keys = s.keys := rfl
@[simp] theorem State.writeByte_waitPending (a : Nat) (b : Byte) : (s.writeByte a b).waitPending = s.waitPending := rfl
@[simp] theorem State.writeByte_waitTarget (a : Nat) (b : Byte) : (s.writeByte a b).waitTarget = s.waitTarget := rfl
@[simp] theorem State.writeByte_quirks (a : Nat) (b : Byte) : (s.writeByte a b).quirks = s.quirks := rfl
@[simp] theorem State.writeByte_rngPresent (a : Nat) (b : Byte) : (s.writeByte a b).rngPresent = s.rngPresent := rfl
@[simp] theorem State.writeByte_rngDraws (a : Nat) (b : Byte) : (s.writeByte a b).rngDraws = s.rngDraws := rfl
@[simp] theorem State.writeByte_params (a : Nat) (b : Byte) : (s.writeByte a b).params = s.params := rfl
@[simp] theorem State.writeByte_mem (a : Nat) (b : Byte) : (s.writeByte a b).mem = memPut s.params.font s.mem (wrapAddr a) b := rfl
@[simp] theorem State.writeByte_reg (a : Nat) (b : Byte) (r : Nibble) : (s.writeByte a b).reg r = s.reg r := rfl
@[simp] theorem State.writeByte_key (a : Nat) (b : Byte) (j : Nibble) : (s.writeByte a b).key j = s.key j := rfl
@[simp] theorem State.writeByte_pixel (a : Nat) (b : Byte) (py : Fin 32) (px : Fin 64) : (s.writeByte a b).pixel py px = s.pixel py px := rfl

/-! `State.setDisp` -/

@[simp] theorem State.setDisp_v (d : Display) : (s.setDisp d).v = s.v := rfl
@[simp] theorem State.setDisp_i (d : Display) : (s.setDisp d).i = s.i := rfl
@[simp] theorem State.setDisp_pc (d : Display) : (s.setDisp d).pc = s.pc := rfl
@[simp] theorem State.setDisp_stack (d : Display) : (s.setDisp d).stack = s.stack := rfl
@[simp] theorem State.setDisp_sp (d : Display) : (s.setDisp d).sp = s.sp := rfl
@[simp] theorem State.setDisp_dt (d : Display) : (s.setDisp d).dt = s.dt := rfl
@[simp] theorem State.setDisp_st (d : Display) : (s.setDisp d).st = s.st := rfl
@[simp] theorem State.setDisp_disp (d : Display) : (s.setDisp d).disp = d := rfl
@[simp] theorem State.setDisp_keys (d : Display) : (s.setDisp d).keys = s.keys := rfl
@[simp] theorem State.setDisp_waitPending (d : Display) : (s.setDisp d).waitPending = s.waitPending := rfl
@[simp] theorem State.setDisp_waitTarget (d : Display) : (s.setDisp d).waitTarget = s.waitTarget := rfl
@[simp] theorem State.setDisp_quirks (d : Display) : (s.setDisp d).quirks = s.quirks := rfl
@[simp] theorem State.setDisp_rngPresent (d : Display) : (s.setDisp d).rngPresent = s.rngPresent := rfl
@[simp] theorem State.setDisp_rngDraws (d : Display) : (s.setDisp d).rngDraws = s.rngDraws := rfl
@[simp] theorem State.setDisp_params (d : Display) : (s.setDisp d).params = s.params := rfl
@[simp] theorem State.setDisp_mem (d : Display) : (s.setDisp d).mem = s.mem := rfl
@[simp] theorem State.setDisp_reg (d : Display) (r : Nibble) : (s.setDisp d).reg r = s.reg r := rfl
@[simp] theorem State.setDisp_readByte (d : Display) (c : Nat) : (s.setDisp d).readByte c = s.readByte c := rfl
@[simp] theorem State.setDisp_key (d : Display) (j : Nibble) : (s.setDisp d).key j = s.key j := rfl
@[simp] theorem State.setDisp_memWf (d : Display) : (s.setDisp d).memWf = s.memWf := rfl

/-! `State.setKey` -/

@[simp] theorem State.setKey_v (k : Nibble) (b : Bool) : (s.setKey k b).v = s.v := rfl
@[simp] theorem State.setKey_i (k : Nibble) (b : Bool) : (s.setKey k b).i = s.i := rfl
@[simp] theorem State.setKey_pc (k : Nibble) (b : Bool) : (s.setKey k b).pc = s.pc := rfl
@[simp] theorem State.setKey_stack (k : Nibble) (b : Bool) : (s.setKey k b).stack = s.stack := rfl
@[simp] theorem State.setKey_sp (k : Nibble) (b : Bool) : (s.setKey k b).sp = s.sp := rfl
@[simp] theorem State.setKey_dt (k : Nibble) (b : Bool) : (s.setKey k b).dt = s.dt := rfl
@[simp] theorem State.setKey_st (k : Nibble) (b : Bool) : (s.setKey k b).st = s.st := rfl
@[simp] theorem State.setKey_disp (k : Nibble) (b : Bool) : (s.setKey k b).disp = s.disp := rfl
@[simp] theorem State.setKey_keys (k : Nibble) (b : Bool) : (s.setKey k b).keys = s.keys.set k.toNat b k.isLt := rfl
@[simp] theorem State.setKey_waitPending (k : Nibble) (b : Bool) : (s.setKey k b).waitPending = s.waitPending := rfl
@[simp] theorem State.setKey_waitTarget (k : Nibble) (b : Bool) : (s.setKey k b).waitTarget = s.waitTarget := rfl
@[simp] theorem State.setKey_quirks (k : Nibble) (b : Bool) : (s.setKey k b).quirks = s.quirks := rfl
@[simp] theorem State.setKey_rngPresent (k : Nibble) (b : Bool) : (s.setKey k b).rngPresent = s.rngPresent := rfl
@[simp] theorem State.setKey_rngDraws (k : Nibble) (b : Bool) : (s.setKey k b).rngDraws = s.rngDraws := rfl
@[simp] theorem State.setKey_params (k : Nibble) (b : Bool) : (s.setKey k b).params = s.params := rfl
@[simp] theorem State.setKey_mem (k : Nibble) (b : Bool) : (s.setKey k b).mem = s.mem := rfl
@[simp] theorem State.setKey_reg (k : Nibble) (b : Bool) (r : Nibble) : (s.setKey k b).reg r = s.reg r := rfl
@[simp] theorem State.setKey_readByte (k : Nibble) (b : Bool) (c : Nat) : (s.setKey k b).readByte c = s.readByte c := rfl
@[simp] theorem State.setKey_pixel (k : Nibble) (b : Bool) (py : Fin 32) (px : Fin 64) : (s.setKey k b).pixel py px = s.pixel py px := rfl
@[simp] theorem State.setKey_memWf (k : Nibble) (b : Bool) : (s.setKey k b).memWf = s.memWf := rfl

/-! `State.armWait` -/

@[simp] theorem State.armWait_v (x : Nibble) : (s.armWait x).v = s.v := rfl
@[simp] theorem State.armWait_i (x : Nibble) : (s.armWait x).i = s.i := rfl
@[simp] theorem State.armWait_pc (x : Nibble) : (s.armWait x).pc = s.pc := rfl
@[simp] theorem State.armWait_stack (x : Nibble) : (s.armWait x).stack = s.stack := rfl
@[simp] theorem State.armWait_sp (x : Nibble) : (s.armWait x).sp = s.sp := rfl
@[simp] theorem State.armWait_dt (x : Nibble) : (s.armWait x).dt = s.dt := rfl
@[simp] theorem State.armWait_st (x : Nibble) : (s.armWait x).st = s.st := rfl
@[simp] theorem State.armWait_disp (x : Nibble) : (s.armWait x).disp = s.disp := rfl
@[simp] theorem State.armWait_keys (x : Nibble) : (s.armWait x).keys = s.keys := rfl
@[simp] theorem State.armWait_waitPending (x : Nibble) : (s.armWait x).waitPending = true := rfl
@[simp] theorem State.armWait_waitTarget (x : Nibble) : (s.armWait x).waitTarget = x := rfl
@[simp] theorem State.armWait_quirks (x : Nibble) : (s.armWait x).quirks = s.quirks := rfl
@[simp] theorem State.armWait_rngPresent (x : Nibble) : (s.armWait x).rngPresent = s.rngPresent := rfl
@[simp] theorem State.armWait_rngDraws (x : Nibble) : (s.armWait x).rngDraws = s.rngDraws := rfl
@[simp] theorem State.armWait_params (x : Nibble) : (s.armWait x).params = s.params := rfl
@[simp] theorem State.armWait_mem (x : Nibble) : (s.armWait x).mem = s.mem := rfl
@[simp] theorem State.armWait_reg (x : Nibble) (r : Nibble) : (s.armWait x).reg r = s.reg r := rfl
@[simp] theorem State.armWait_readByte (x : Nibble) (c : Nat) : (s.armWait x).readByte c = s.readByte c := rfl
@[simp] theorem State.armWait_key (x : Nibble) (j : Nibble) : (s.armWait x).key j = s.key j := rfl
@[simp] theorem State.armWait_pixel (x : Nibble) (py : Fin 32) (px : Fin 64) : (s.armWait x).pixel py px = s.pixel py px := rfl
@[simp] theorem State.armWait_memWf (x : Nibble) : (s.armWait x).memWf = s.memWf := rfl

/-! `State.clearWait` -/

@[simp] theorem State.clearWait_v : (s.clearWait).v = s.v := rfl
@[simp] theorem State.clearWait_i : (s.clearWait).i = s.i := rfl
@[simp] theorem State.clearWait_pc : (s.clearWait).pc = s.pc := rfl
@[simp] theorem State.clearWait_stack : (s.clearWait).stack = s.stack := rfl
@[simp] theorem State.clearWait_sp : (s.clearWait).sp = s.sp := rfl
@[simp] theorem State.clearWait_dt : (s.clearWait).dt = s.dt := rfl
@[simp] theorem State.clearWait_st : (s.clearWait).st = s.st := rfl
@[simp] theorem State.clearWait_disp : (s.clearWait).disp = s.disp := rfl
@[simp] theorem State.clearWait_keys : (s.clearWait).keys = s.keys := rfl
@[simp] theorem State.clearWait_waitPending : (s.clearWait).waitPending = false := rfl
@[simp] theorem State.clearWait_waitTarget : (s.clearWait).waitTarget = s.waitTarget := rfl
@[simp] theorem State.clearWait_quirks : (s.clearWait).quirks = s.quirks := rfl
@[simp] theorem State.clearWait_rngPresent : (s.clearWait).rngPresent = s.rngPresent := rfl
@[simp] theorem State.clearWait_rngDraws : (s.clearWait).rngDraws = s.rngDraws := rfl
@[simp] theorem State.clearWait_params : (s.clearWait).params = s.params := rfl
@[simp] theorem State.clearWait_mem : (s.clearWait).mem = s.mem := rfl
@[simp] theorem State.clearWait_reg (r : Nibble) : (s.clearWait).reg r = s.reg r := rfl
@[simp] theorem State.clearWait_readByte (c : Nat) : (s.clearWait).readByte c = s.readByte c := rfl
@[simp] theorem State.clearWait_key (j : Nibble) : (s.clearWait).key j = s.key j := rfl
@[simp] theorem State.clearWait_pixel (py : Fin 32) (px : Fin 64) : (s.clearWait).pixel py px = s.pixel py px := rfl
@[simp] theorem State.clearWait_memWf : (s.clearWait).memWf = s.memWf := rfl

/-! `State.countDraw` -/

@[simp] theorem State.countDraw_v : (s.countDraw).v = s.v := rfl
@[simp] theorem State.countDraw_i : (s.countDraw).i = s.i := rfl
@[simp] theorem State.countDraw_pc : (s.countDraw).pc = s.pc := rfl
@[simp] theorem State.countDraw_stack : (s.countDraw).stack = s.stack := rfl
@[simp] theorem State.countDraw_sp : (s.countDraw).sp = s.sp := rfl
@[simp] theorem State.countDraw_dt : (s.countDraw).dt = s.dt := rfl
@[simp] theorem State.countDraw_st : (s.countDraw).st = s.st := rfl
@[simp] theorem State.countDraw_disp : (s.countDraw).disp = s.disp := rfl
@[simp] theorem State.countDraw_keys : (s.countDraw).keys = s.keys := rfl
@[simp] theorem State.countDraw_waitPending : (s.countDraw).waitPending = s.waitPending := rfl
@[simp] theorem State.countDraw_waitTarget : (s.countDraw).waitTarget = s.waitTarget := rfl
@[simp] theorem State.countDraw_quirks : (s.countDraw).quirks = s.quirks := rfl
@[simp] theorem State.countDraw_rngPresent : (s.countDraw).rngPresent = s.rngPresent := rfl
@[simp] theorem State.countDraw_rngDraws : (s.countDraw).rngDraws = if s.rngPresent then s.rngDraws + 1 else s.rngDraws := rfl
@[simp] theorem State.countDraw_params : (s.countDraw).params = s.params := rfl
@[simp] theorem State.countDraw_mem : (s.countDraw).mem = s.mem := rfl
@[simp] theorem State.countDraw_reg (r : Nibble) : (s.countDraw).reg r = s.reg r := rfl
@[simp] theorem State.countDraw_readByte (c : Nat) : (s.countDraw).readByte c = s.readByte c := rfl
@[simp] theorem State.countDraw_key (j : Nibble) : (s.countDraw).key j = s.key j := rfl
@[simp] theorem State.countDraw_pixel (py : Fin 32) (px : Fin 64) : (s.countDraw).pixel py px = s.pixel py px := rfl
@[simp] theorem State.countDraw_memWf : (s.countDraw).memWf = s.memWf := rfl

/-! `State.advance` -/

@[simp] theorem State.advance_v (a : Advance) : (s.advance a).v = s.v := by cases a <;> rfl
@[simp] theorem State.advance_i (a : Advance) : (s.advance a).i = s.i := by cases a <;> rfl
@[simp] theorem State.advance_stack (a : Advance) : (s.advance a).stack = s.stack := by cases a <;> rfl
@[simp] theorem State.advance_sp (a : Advance) : (s.advance a).sp = s.sp := by cases a <;> rfl
@[simp] theorem State.advance_dt (a : Advance) : (s.advance a).dt = s.dt := by cases a <;> rfl
@[simp] theorem State.advance_st (a : Advance) : (s.advance a).st = s.st := by cases a <;> rfl
@[simp] theorem State.advance_disp (a : Advance) : (s.advance a).disp = s.disp := by cases a <;> rfl
@[simp] theorem State.advance_keys (a : Advance) : (s.advance a).keys = s.keys := by cases a <;> rfl
@[simp] theorem State.advance_waitPending (a : Advance) : (s.advance a).waitPending = s.waitPending := by cases a <;> rfl
@[simp] theorem State.advance_waitTarget (a : Advance) : (s.advance a).waitTarget = s.waitTarget := by cases a <;> rfl
@[simp] theorem State.advance_quirks (a : Advance) : (s.advance a).quirks = s.quirks := by cases a <;> rfl
@[simp] theorem State.advance_rngPresent (a : Advance) : (s.advance a).rngPresent = s.rngPresent := by cases a <;> rfl
@[simp] theorem State.advance_rngDraws (a : Advance) : (s.advance a).rngDraws = s.rngDraws := by cases a <;> rfl
@[simp] theorem State.advance_params (a : Advance) : (s.advance a).params = s.params := by cases a <;> rfl
@[simp] theorem State.advance_mem (a : Advance) : (s.advance a).mem = s.mem := by cases a <;> rfl
@[simp] theorem State.advance_reg (a : Advance) (r : Nibble) : (s.advance a).reg r = s.reg r := by cases a <;> rfl
@[simp] theorem State.advance_readByte (a : Advance) (c : Nat) : (s.advance a).readByte c = s.readByte c := by cases a <;> rfl
@[simp] theorem State.advance_key (a : Advance) (j : Nibble) : (s.advance a).key j = s.key j := by cases a <;> rfl
@[simp] theorem State.advance_pixel (a : Advance) (py : Fin 32) (px : Fin 64) : (s.advance a).pixel py px = s.pixel py px := by cases a <;> rfl
@[simp] theorem State.advance_memWf (a : Advance) : (s.advance a).memWf = s.memWf := by cases a <;> rfl

end Sys2Proof.Machine
end

