-- ==== Sys2Proof/Laws/Decode.lean ====
section
/-! SUPPORT. The fields of a word in each format of R62, a word rebuilt from its fields and from its bytes,
and the bits a mask keeps: what proofs about decoding and encoding cite instead of unfolding bit slices. -/

namespace Sys2Proof

@[simp] theorem fieldHi_formatA (hi : Nibble) (nnn : Addr) : fieldHi (formatA hi nnn) = hi := by
  apply BitVec.eq_of_getLsbD_eq
  intro i h
  simp only [fieldHi, formatA, BitVec.getLsbD_extractLsb', BitVec.getLsbD_append]
  interval_cases i <;> simp

@[simp] theorem fieldNNN_formatA (hi : Nibble) (nnn : Addr) : fieldNNN (formatA hi nnn) = nnn := by
  apply BitVec.eq_of_getLsbD_eq
  intro i h
  simp only [fieldNNN, formatA, BitVec.getLsbD_extractLsb', BitVec.getLsbD_append]
  interval_cases i <;> simp

@[simp] theorem fieldKK_formatA (hi : Nibble) (nnn : Addr) : fieldKK (formatA hi nnn) = nnn.extractLsb' 0 8 := by
  apply BitVec.eq_of_getLsbD_eq
  intro i h
  simp only [fieldKK, formatA, BitVec.getLsbD_extractLsb', BitVec.getLsbD_append]
  interval_cases i <;> simp

@[simp] theorem fieldHi_formatI (hi x : Nibble) (kk : Byte) : fieldHi (formatI hi x kk) = hi := by
  apply BitVec.eq_of_getLsbD_eq
  intro i h
  simp only [fieldHi, formatI, BitVec.getLsbD_extractLsb', BitVec.getLsbD_append]
  interval_cases i <;> simp

@[simp] theorem fieldX_formatI (hi x : Nibble) (kk : Byte) : fieldX (formatI hi x kk) = x := by
  apply BitVec.eq_of_getLsbD_eq
  intro i h
  simp only [fieldX, formatI, BitVec.getLsbD_extractLsb', BitVec.getLsbD_append]
  interval_cases i <;> simp

@[simp] theorem fieldKK_formatI (hi x : Nibble) (kk : Byte) : fieldKK (formatI hi x kk) = kk := by
  apply BitVec.eq_of_getLsbD_eq
  intro i h
  simp only [fieldKK, formatI, BitVec.getLsbD_extractLsb', BitVec.getLsbD_append]
  interval_cases i <;> simp

@[simp] theorem fieldHi_formatR (hi x y n : Nibble) : fieldHi (formatR hi x y n) = hi := by
  apply BitVec.eq_of_getLsbD_eq
  intro i h
  simp only [fieldHi, formatR, BitVec.getLsbD_extractLsb', BitVec.getLsbD_append]
  interval_cases i <;> simp

@[simp] theorem fieldX_formatR (hi x y n : Nibble) : fieldX (formatR hi x y n) = x := by
  apply BitVec.eq_of_getLsbD_eq
  intro i h
  simp only [fieldX, formatR, BitVec.getLsbD_extractLsb', BitVec.getLsbD_append]
  interval_cases i <;> simp

@[simp] theorem fieldY_formatR (hi x y n : Nibble) : fieldY (formatR hi x y n) = y := by
  apply BitVec.eq_of_getLsbD_eq
  intro i h
  simp only [fieldY, formatR, BitVec.getLsbD_extractLsb', BitVec.getLsbD_append]
  interval_cases i <;> simp

@[simp] theorem fieldN_formatR (hi x y n : Nibble) : fieldN (formatR hi x y n) = n := by
  apply BitVec.eq_of_getLsbD_eq
  intro i h
  simp only [fieldN, formatR, BitVec.getLsbD_extractLsb', BitVec.getLsbD_append]
  interval_cases i <;> simp

/-! The number a word stands for -/

theorem formatA_toNat (hi : Nibble) (nnn : Addr) : (formatA hi nnn).toNat = 4096 * hi.toNat + nnn.toNat := by
  have := nnn.isLt
  rw [formatA, BitVec.toNat_append, Nat.shiftLeft_eq, Nat.mul_comm, ← Nat.two_pow_add_eq_or_of_lt (by omega)]

theorem formatI_toNat (hi x : Nibble) (kk : Byte) :
    (formatI hi x kk).toNat = 4096 * hi.toNat + 256 * x.toNat + kk.toNat := by
  have h1 := x.isLt
  have h2 := kk.isLt
  rw [formatI, BitVec.toNat_append, BitVec.toNat_append, Nat.shiftLeft_eq, Nat.shiftLeft_eq, Nat.mul_comm _ (2 ^ 4),
    ← Nat.two_pow_add_eq_or_of_lt (by omega), Nat.mul_comm _ (2 ^ 8), ← Nat.two_pow_add_eq_or_of_lt (by omega)]
  omega

theorem formatR_toNat (hi x y n : Nibble) :
    (formatR hi x y n).toNat = 4096 * hi.toNat + 256 * x.toNat + 16 * y.toNat + n.toNat := by
  have h1 := x.isLt
  have h2 := y.isLt
  have h3 := n.isLt
  rw [formatR, BitVec.toNat_append, BitVec.toNat_append, BitVec.toNat_append, Nat.shiftLeft_eq, Nat.shiftLeft_eq,
    Nat.shiftLeft_eq, Nat.mul_comm _ (2 ^ 4), ← Nat.two_pow_add_eq_or_of_lt (by omega), Nat.mul_comm _ (2 ^ 4),
    ← Nat.two_pow_add_eq_or_of_lt (by omega), Nat.mul_comm _ (2 ^ 4), ← Nat.two_pow_add_eq_or_of_lt (by omega)]
  omega

/-! A word rebuilt from its fields -/

@[simp] theorem formatA_fields (w : Word) : formatA (fieldHi w) (fieldNNN w) = w := by
  apply BitVec.eq_of_getLsbD_eq
  intro i h
  simp only [fieldHi, fieldNNN, formatA, BitVec.getLsbD_extractLsb', BitVec.getLsbD_append]
  interval_cases i <;> simp

@[simp] theorem formatI_fields (w : Word) : formatI (fieldHi w) (fieldX w) (fieldKK w) = w := by
  apply BitVec.eq_of_getLsbD_eq
  intro i h
  simp only [fieldHi, fieldX, fieldKK, formatI, BitVec.getLsbD_extractLsb', BitVec.getLsbD_append]
  interval_cases i <;> simp

@[simp] theorem formatR_fields (w : Word) : formatR (fieldHi w) (fieldX w) (fieldY w) (fieldN w) = w := by
  apply BitVec.eq_of_getLsbD_eq
  intro i h
  simp only [fieldHi, fieldX, fieldY, fieldN, formatR, BitVec.getLsbD_extractLsb', BitVec.getLsbD_append]
  interval_cases i <;> simp

/-- The two bytes of a word, put together again, are the word (R41). -/
@[simp] theorem wordOfBytes_bytes (w : Word) : wordOfBytes (highByte w) (lowByte w) = w := by
  apply BitVec.eq_of_getLsbD_eq
  intro i h
  simp only [wordOfBytes, highByte, lowByte, BitVec.getLsbD_extractLsb', BitVec.getLsbD_append]
  interval_cases i <;> simp

/-- The byte at the lower address counts 256 times (R41). -/
theorem wordOfBytes_toNat (hi lo : Byte) : (wordOfBytes hi lo).toNat = 256 * hi.toNat + lo.toNat := by
  have := lo.isLt
  rw [wordOfBytes, BitVec.toNat_append, Nat.shiftLeft_eq, Nat.mul_comm, ← Nat.two_pow_add_eq_or_of_lt (by omega)]

/-! The bits of a word that a row's mask keeps -/

@[simp] theorem formatA_and_mask (hi : Nibble) (nnn : Addr) : formatA hi nnn &&& 0xF000#16 = formatA hi 0#12 := by
  apply BitVec.eq_of_getLsbD_eq
  intro i h
  simp only [formatA, BitVec.getLsbD_and, BitVec.getLsbD_append]
  interval_cases i <;> simp

@[simp] theorem formatI_and_mask (hi x : Nibble) (kk : Byte) : formatI hi x kk &&& 0xF000#16 = formatI hi 0#4 0#8 := by
  apply BitVec.eq_of_getLsbD_eq
  intro i h
  simp only [formatI, BitVec.getLsbD_and, BitVec.getLsbD_append]
  interval_cases i <;> simp

@[simp] theorem formatI_and_mask_kk (hi x : Nibble) (kk : Byte) : formatI hi x kk &&& 0xF0FF#16 = formatI hi 0#4 kk := by
  apply BitVec.eq_of_getLsbD_eq
  intro i h
  simp only [formatI, BitVec.getLsbD_and, BitVec.getLsbD_append]
  interval_cases i <;> simp

@[simp] theorem formatR_and_mask (hi x y n : Nibble) : formatR hi x y n &&& 0xF000#16 = formatR hi 0#4 0#4 0#4 := by
  apply BitVec.eq_of_getLsbD_eq
  intro i h
  simp only [formatR, BitVec.getLsbD_and, BitVec.getLsbD_append]
  interval_cases i <;> simp

@[simp] theorem formatR_and_mask_n (hi x y n : Nibble) : formatR hi x y n &&& 0xF00F#16 = formatR hi 0#4 0#4 n := by
  apply BitVec.eq_of_getLsbD_eq
  intro i h
  simp only [formatR, BitVec.getLsbD_and, BitVec.getLsbD_append]
  interval_cases i <;> simp

end Sys2Proof
end

