-- ==== Sys2Proof/Laws/Memory.lean ====
section
/-! SUPPORT. The laws of memory: a read after a write, the canonical form kept by every operation that writes memory, and
equal memories as equal lists. -/

namespace Sys2Proof.Machine

/-! What an unlisted address reads as -/

/-- An address of the font region reads as its byte of `FONT`. -/
theorem initialByte_font (f : Font) (k : Fin 80) : initialByte f (0x050 + k.val) = f[k.val] := by
  have h : 0x050 ≤ 0x050 + k.val ∧ 0x050 + k.val < 0x050 + 80 := by omega
  simp only [initialByte, dif_pos h, Nat.add_sub_cancel_left]

/-- An address outside the font region reads as 0. -/
theorem initialByte_zero (f : Font) {a : Nat} (h : a < 0x050 ∨ 0x0A0 ≤ a) : initialByte f a = 0#8 :=
  dif_neg (by omega)

/-! The list operations -/

theorem memGet_of_wfFrom_lt {f : Font} {lo : Nat} {m : List Host.Cell} (h : Memory.wfFrom f lo m = true) {a : Nat} (ha : a < lo) :
    memGet f m a = initialByte f a := by
  induction m generalizing lo with
  | nil => rfl
  | cons e rest ih =>
    obtain ⟨k, c⟩ := e
    simp only [Memory.wfFrom, Bool.and_eq_true, decide_eq_true_eq] at h
    have hk : k ≠ a := by omega
    simp only [memGet, hk, if_false]
    exact ih h.2 (by omega)

theorem wfFrom_mono {f : Font} {lo lo' : Nat} {m : List Host.Cell} (hl : lo' ≤ lo) (h : Memory.wfFrom f lo m = true) :
    Memory.wfFrom f lo' m = true := by
  cases m with
  | nil => rfl
  | cons e rest =>
    obtain ⟨k, c⟩ := e
    simp only [Memory.wfFrom, Bool.and_eq_true, decide_eq_true_eq] at h ⊢
    exact ⟨⟨⟨by omega, h.1.1.2⟩, h.1.2⟩, h.2⟩

/-- A write to an address of the space keeps the canonical form. -/
theorem wfFrom_memPut {f : Font} {lo : Nat} {m : List Host.Cell} (h : Memory.wfFrom f lo m = true) {a : Nat} (b : Byte) (hlo : lo ≤ a)
    (ha : a < memSize) : Memory.wfFrom f lo (memPut f m a b) = true := by
  induction m generalizing lo with
  | nil =>
    simp only [memPut]
    split
    · rfl
    · rename_i hb
      simp [Memory.wfFrom, hb, hlo, ha]
  | cons e rest ih =>
    obtain ⟨k, c⟩ := e
    have h' := h
    simp only [Memory.wfFrom, Bool.and_eq_true, decide_eq_true_eq] at h'
    obtain ⟨⟨⟨h1, h2⟩, h3⟩, h4⟩ := h'
    simp only [memPut]
    by_cases hlt : a < k
    · by_cases hb : b = initialByte f a
      · simp [hlt, hb, h]
      · have hk : a + 1 ≤ k := hlt
        simp_all [Memory.wfFrom]
    · by_cases heq : a = k
      · subst heq
        by_cases hb : b = initialByte f a
        · simpa [hb] using wfFrom_mono (by omega) h4
        · simp_all [Memory.wfFrom]
      · have := ih h4 (by omega)
        simp only [hlt, heq, if_false, Memory.wfFrom, Bool.and_eq_true, decide_eq_true_eq]
        exact ⟨⟨⟨h1, h2⟩, h3⟩, this⟩

/-- What a read gives after a write, on a list in canonical form. -/
theorem memGet_memPut {f : Font} {lo : Nat} {m : List Host.Cell} (h : Memory.wfFrom f lo m = true) (a : Nat) (b : Byte) (c : Nat) :
    memGet f (memPut f m a b) c = if c = a then b else memGet f m c := by
  induction m generalizing lo with
  | nil =>
    simp only [memPut]
    by_cases hb : b = initialByte f a
    · by_cases hc : c = a
      · subst hc; simp [memGet, hb]
      · simp [memGet, hb, hc]
    · by_cases hc : c = a
      · subst hc; simp [memGet, hb]
      · simp [memGet, hb, hc, Ne.symm hc]
  | cons e rest ih =>
    obtain ⟨k, d⟩ := e
    have h' := h
    simp only [Memory.wfFrom, Bool.and_eq_true, decide_eq_true_eq] at h'
    obtain ⟨_, h4⟩ := h'
    simp only [memPut]
    by_cases hlt : a < k
    · have hread : memGet f ((k, d) :: rest) a = initialByte f a :=
        memGet_of_wfFrom_lt (lo := k) (by simp_all [Memory.wfFrom]) hlt
      by_cases hb : b = initialByte f a
      · by_cases hc : c = a
        · subst hc; simp [hlt, hb, hread]
        · simp [hlt, hb, hc]
      · by_cases hc : c = a
        · subst hc; simp [hlt, hb, memGet]
        · simp [hlt, hb, hc, memGet, Ne.symm hc]
    · by_cases heq : a = k
      · subst heq
        have hrest : memGet f rest a = initialByte f a := memGet_of_wfFrom_lt h4 (by omega)
        by_cases hb : b = initialByte f a
        · by_cases hc : c = a
          · subst hc; simp [hb, hrest]
          · simp [hb, hc, memGet, Ne.symm hc]
        · by_cases hc : c = a
          · subst hc; simp [hb, memGet]
          · simp [hb, hc, memGet, Ne.symm hc]
      · simp only [hlt, heq, if_false, memGet]
        by_cases hk : k = c
        · have : c ≠ a := fun hca => heq (by omega)
          simp [hk, this]
        · simp [hk, ih h4]

/-- Two canonical lists that read the same everywhere are the same list. -/
theorem wfFrom_ext {f : Font} {lo lo' : Nat} {m m' : List Host.Cell} (h : Memory.wfFrom f lo m = true) (h' : Memory.wfFrom f lo' m' = true)
    (hread : ∀ a, memGet f m a = memGet f m' a) : m = m' := by
  induction m generalizing lo lo' m' with
  | nil =>
    cases m' with
    | nil => rfl
    | cons e' rest' =>
      obtain ⟨k', c'⟩ := e'
      simp only [Memory.wfFrom, Bool.and_eq_true, bne_iff_ne] at h'
      have := hread k'
      simp only [memGet, if_true] at this
      exact absurd this.symm h'.1.2
  | cons e rest ih =>
    obtain ⟨k, c⟩ := e
    have hk := h
    simp only [Memory.wfFrom, Bool.and_eq_true, decide_eq_true_eq, bne_iff_ne] at hk
    cases m' with
    | nil =>
      have := hread k
      simp only [memGet, if_true] at this
      exact absurd this hk.1.2
    | cons e' rest' =>
      obtain ⟨k', c'⟩ := e'
      have hk' := h'
      simp only [Memory.wfFrom, Bool.and_eq_true, decide_eq_true_eq, bne_iff_ne] at hk'
      have e1 : Memory.wfFrom f k ((k, c) :: rest) = true := by simp_all [Memory.wfFrom]
      have e2 : Memory.wfFrom f k' ((k', c') :: rest') = true := by simp_all [Memory.wfFrom]
      rcases Nat.lt_trichotomy k k' with hlt | heq | hgt
      · have := hread k
        rw [memGet_of_wfFrom_lt e2 hlt] at this
        simp only [memGet, if_true] at this
        exact absurd this hk.1.2
      · subst heq
        have hc := hread k
        simp only [memGet, if_true] at hc
        subst hc
        have : rest = rest' := by
          refine ih hk.2 hk'.2 fun a => ?_
          by_cases ha : k = a
          · subst ha
            rw [memGet_of_wfFrom_lt hk.2 (by omega), memGet_of_wfFrom_lt hk'.2 (by omega)]
          · have := hread a
            simpa [memGet, ha] using this
        rw [this]
      · have := hread k'
        rw [memGet_of_wfFrom_lt e1 hgt] at this
        simp only [memGet, if_true] at this
        exact absurd this.symm hk'.1.2

/-! The state's operations -/

theorem wrapAddr_lt (a : Nat) : wrapAddr a < memSize := Nat.mod_lt a (by decide)

/-- `memPut` on a memory that is not canonical can still differ from the written byte only where it should not be asked; the
read law therefore carries the canonical form as its premise. -/
theorem State.readByte_writeByte {s : State} (h : s.memWf = true) (a : Nat) (b : Byte) (c : Nat) :
    (s.writeByte a b).readByte c = if wrapAddr c = wrapAddr a then b else s.readByte c :=
  memGet_memPut h (wrapAddr a) b (wrapAddr c)

theorem State.writeByte_wf {s : State} (h : s.memWf = true) (a : Nat) (b : Byte) :
    (s.writeByte a b).memWf = true :=
  wfFrom_memPut h b (Nat.zero_le _) (wrapAddr_lt a)

theorem State.writeBytes_wf {s : State} (h : s.memWf = true) (a : Nat) (bs : List Byte) :
    (s.writeBytes a bs).memWf = true := by
  induction bs generalizing s a with
  | nil => exact h
  | cons b rest ih => exact ih (s.writeByte_wf h a b) (a + 1)

theorem State.storeRegs_wf {s : State} (h : s.memWf = true) (a n : Nat) :
    (s.storeRegs a n).memWf = true := by
  induction n with
  | zero => exact h
  | succ n ih => exact State.writeByte_wf ih _ _

theorem State.placeWord_wf {s : State} (h : s.memWf = true) (a : Nat) (w : Word) :
    (s.placeWord a w).memWf = true :=
  State.writeByte_wf (State.writeByte_wf h _ _) _ _

/-- After `create`, a byte reads as `FONT` and the zeros put it, whatever the parameters (R28, R80). -/
theorem State.readByte_create (q : Quirks) (p : Params) (rng : Bool) (a : Nat) :
    (State.create q p rng).readByte a = initialByte p.font (wrapAddr a) := rfl

/-- A state of every `FONT` has its own font in place after `create` (R21, R28). -/
theorem State.create_fontInPlace (q : Quirks) (p : Params) (rng : Bool) : Safety.FontInPlace (State.create q p rng) := by
  intro k
  rw [State.readByte_create, wrapAddr, Nat.mod_eq_of_lt (by simp only [memSize]; omega)]
  exact initialByte_font p.font k

theorem State.create_wf (q : Quirks) (p : Params) (rng : Bool) : (State.create q p rng).memWf = true := rfl

theorem State.reset_wf : State.reset.memWf = true := rfl

end Sys2Proof.Machine
end

