-- ==== Sys2Proof/Laws/Ops.lean ====
section
/-! SUPPORT. One lemma per shared operation that says everything it can do: what a proof about an instruction cites instead of
unfolding the operation. -/

namespace Sys2Proof.Machine

/-! Registers -/

theorem State.reg_setReg (s : State) (x : Nibble) (b : Byte) (r : Nibble) :
    (s.setReg x b).reg r = if r = x then b else s.reg r := by
  simp only [State.reg, State.setReg, Vector.getElem_set]
  by_cases h : r = x
  · simp [h]
  · have : ¬ x.toNat = r.toNat := fun e => h (BitVec.eq_of_toNat_eq e.symm)
    simp [h, this]

@[simp] theorem State.reg_setReg_same (s : State) (x : Nibble) (b : Byte) : (s.setReg x b).reg x = b := by
  simp [State.reg_setReg]

theorem State.reg_setReg_of_ne (s : State) {x r : Nibble} (b : Byte) (h : r ≠ x) : (s.setReg x b).reg r = s.reg r := by
  simp [State.reg_setReg, h]

/-- The flag is written last: with x = 0xF the flag stays (R13). -/
theorem State.reg_setRegFlag (s : State) (x : Nibble) (b f : Byte) (r : Nibble) :
    (s.setRegFlag x b f).reg r = if r = vf then f else if r = x then b else s.reg r := by
  simp only [State.setRegFlag, State.reg_setReg]

/-- Two states with the same registers hold the same register file. -/
theorem v_ext {s t : State} (h : ∀ r : Nibble, t.reg r = s.reg r) : t.v = s.v := by
  apply Vector.ext
  intro i hi
  have := h (BitVec.ofNat 4 i)
  have e : (BitVec.ofNat 4 i).toNat = i := by simp; omega
  simpa only [State.reg, e] using this

/-! The outcome of an instruction -/

@[simp] theorem pcOfNat_toNat (n : Nat) : (pcOfNat n).toNat = n % 4096 := by
  simp only [pcOfNat, memSize, BitVec.toNat_ofNat]
  omega

theorem State.advance_pc (s : State) (a : Advance) : (s.advance a).pc =
    match a with
    | .advance2 => pcOfNat (s.pc.toNat + 2)
    | .advance4 => pcOfNat (s.pc.toNat + 4)
    | .noAdvance => s.pc := by cases a <;> rfl

@[simp] theorem advance_advance2 (s : State) : s.advance .advance2 = s.setPc (s.pc.toNat + 2) := rfl

@[simp] theorem advance_advance4 (s : State) : s.advance .advance4 = s.setPc (s.pc.toNat + 4) := rfl

@[simp] theorem advance_noAdvance (s : State) : s.advance .noAdvance = s := rfl

/-- Every meaning that ends in `finish` goes on. -/
theorem finish_eq_next {s t : State} {a : Advance} (h : finish s a = .next t) : t = s.advance a := by
  injection h with h
  exact h.symm

/-! Call stack -/

/-- A push on a stack with room writes the next cell and counts it (R17). -/
theorem State.push_of_lt {s : State} (w : Word) (h : s.sp.val < 16) :
    s.push w = some ((s.setCell ⟨s.sp.val, h⟩ w).setSp ⟨s.sp.val + 1, by omega⟩) := by
  simp [State.push, h]

/-- A push on a full stack does nothing (R17, R174). -/
theorem State.push_of_full {s : State} (w : Word) (h : s.sp.val = 16) : s.push w = none := by
  simp [State.push, h]

/-- A pop of a non-empty stack counts one entry less and answers the top (R17). -/
theorem State.pop_of_pos {s : State} (h : 0 < s.sp.val) :
    s.pop = some (s.setSp ⟨s.sp.val - 1, by omega⟩, s.stack[s.sp.val - 1]'(by omega)) := by
  simp [State.pop, h]

/-- A pop of an empty stack does nothing (R17, R174). -/
theorem State.pop_of_empty {s : State} (h : s.sp.val = 0) : s.pop = none := by
  simp [State.pop, h]

/-! Memory -/

/-- Two addresses less than 4096 apart reach different bytes (R43). -/
theorem wrapAddr_add_inj {a i j : Nat} (hi : i < 4096) (hj : j < 4096) (h : wrapAddr (a + i) = wrapAddr (a + j)) : i = j := by
  simp only [wrapAddr, memSize] at h
  omega

/-- The fields a write to memory leaves alone, for a run of writes. -/
theorem State.writeBytes_frame (s : State) (a : Nat) (bs : List Byte) :
    s.writeBytes a bs = { s with mem := (s.writeBytes a bs).mem } := by
  induction bs generalizing s a with
  | nil => rfl
  | cons b rest ih => rw [State.writeBytes, ih]; rfl

/-- What a read gives after a run of bytes no longer than memory was written from `a` on. -/
theorem State.readByte_writeBytes {s : State} (h : s.memWf = true) (a : Nat) (bs : List Byte)
    (hl : bs.length ≤ 4096) (c : Nat) :
    (∀ k : Nat, (hk : k < bs.length) → wrapAddr c = wrapAddr (a + k) → (s.writeBytes a bs).readByte c = bs[k]) ∧
    ((∀ k : Nat, k < bs.length → wrapAddr c ≠ wrapAddr (a + k)) → (s.writeBytes a bs).readByte c = s.readByte c) := by
  induction bs generalizing s a with
  | nil => exact ⟨fun k hk => absurd hk (Nat.not_lt_zero k), fun _ => rfl⟩
  | cons b rest ih =>
    simp only [List.length_cons] at hl
    obtain ⟨ih1, ih2⟩ := ih (s.writeByte_wf h a b) (a + 1) (by omega)
    constructor
    · intro k hk hc
      simp only [List.length_cons] at hk
      cases k with
      | zero =>
        have hne : ∀ k : Nat, k < rest.length → wrapAddr c ≠ wrapAddr (a + 1 + k) := by
          intro k hk' e
          have := wrapAddr_add_inj (a := a) (i := 0) (j := 1 + k) (by omega) (by omega)
            (by rw [← hc, e, Nat.add_assoc])
          omega
        rw [State.writeBytes, ih2 hne, State.readByte_writeByte h]
        simp only [Nat.add_zero] at hc
        simp [hc]
      | succ k =>
        rw [State.writeBytes]
        have := ih1 k (by omega) (by rw [hc]; congr 1; omega)
        simpa using this
    · intro hne
      have h0 := hne 0 (by simp)
      simp only [Nat.add_zero] at h0
      rw [State.writeBytes, ih2 fun k hk e => hne (k + 1) (by simpa using hk) (by rw [e]; congr 1; omega),
        State.readByte_writeByte h]
      simp [h0]

/-- The fields a block store leaves alone. -/
theorem State.storeRegs_frame (s : State) (a n : Nat) : s.storeRegs a n = { s with mem := (s.storeRegs a n).mem } := by
  induction n with
  | zero => rfl
  | succ n ih => rw [State.storeRegs, ih]; rfl

/-- What a read gives after the first `n` registers were stored from `a` on (R144). -/
theorem State.readByte_storeRegs {s : State} (h : s.memWf = true) (a n : Nat) (hn : n ≤ 16) (c : Nat) :
    (∀ k : Nat, k < n → wrapAddr c = wrapAddr (a + k) → (s.storeRegs a n).readByte c = s.reg (BitVec.ofNat 4 k)) ∧
    ((∀ k : Nat, k < n → wrapAddr c ≠ wrapAddr (a + k)) → (s.storeRegs a n).readByte c = s.readByte c) := by
  induction n with
  | zero => exact ⟨fun k hk => absurd hk (Nat.not_lt_zero k), fun _ => rfl⟩
  | succ n ih =>
    obtain ⟨ih1, ih2⟩ := ih (by omega)
    rw [State.storeRegs, State.readByte_writeByte (State.storeRegs_wf h a n)]
    constructor
    · intro k hk hc
      by_cases hkn : k = n
      · simp [hc, hkn]
      · have hne : wrapAddr c ≠ wrapAddr (a + n) := fun e =>
          hkn (wrapAddr_add_inj (a := a) (by omega) (by omega) (hc.symm.trans e))
        simpa [hne] using ih1 k (by omega) hc
    · intro hne
      simpa [hne n (by omega)] using ih2 fun k hk => hne k (by omega)

/-- The fields a block load leaves alone. -/
theorem State.loadRegs_frame (s : State) (a n : Nat) : s.loadRegs a n = { s with v := (s.loadRegs a n).v } := by
  induction n with
  | zero => rfl
  | succ n ih => rw [State.loadRegs, ih]; rfl

/-- The registers after the first `n` were loaded from `a` on (R145). -/
theorem State.reg_loadRegs (s : State) (a n : Nat) (hn : n ≤ 16) (r : Nibble) :
    (s.loadRegs a n).reg r = if r.toNat < n then s.readByte (a + r.toNat) else s.reg r := by
  induction n with
  | zero => rfl
  | succ n ih =>
    rw [State.loadRegs, State.reg_setReg, ih (by omega)]
    by_cases h : r = BitVec.ofNat 4 n
    · have e : r.toNat = n := by rw [h]; simp; omega
      rw [if_pos h, if_pos (by omega), e]
    · have e : r.toNat ≠ n := fun e => h (by apply BitVec.eq_of_toNat_eq; simp; omega)
      simp only [h, if_false]
      by_cases h' : r.toNat < n
      · simp [h', Nat.lt_succ_of_lt h']
      · have : ¬ r.toNat < n + 1 := by omega
        simp [h', this]

/-- A word placed at `a` is the word fetched at `a` (R41). -/
theorem State.fetchWordAt_placeWord {s : State} (h : s.memWf = true) (a : Nat) (w : Word) :
    (s.placeWord a w).fetchWordAt a = w := by
  have hne : wrapAddr a ≠ wrapAddr (a + 1) := fun e =>
    absurd (wrapAddr_add_inj (a := a) (i := 0) (j := 1) (by omega) (by omega) e) (by omega)
  simp only [State.fetchWordAt, State.placeWord, State.readByte_writeByte (s.writeByte_wf h a _),
    State.readByte_writeByte h, if_neg hne, if_true, wordOfBytes_bytes]

/-! Display and keys -/

theorem pixelOf_flipPixel (d : Display) (y y' : Fin 32) (x x' : Fin 64) :
    pixelOf (flipPixel d y x) y' x' = if y' = y ∧ x' = x then !pixelOf d y x else pixelOf d y' x' := by
  simp only [pixelOf, flipPixel, Vector.getElem_set]
  by_cases hy : y' = y
  · subst hy
    by_cases hx : x' = x
    · subst hx; simp
    · have : ¬ x.val = x'.val := fun e => hx (Fin.ext e.symm)
      simp [hx, this]
  · have : ¬ y.val = y'.val := fun e => hy (Fin.ext e.symm)
    simp [hy, this]

@[simp] theorem pixelOf_clear (y : Fin 32) (x : Fin 64) : pixelOf Display.clear y x = false := by
  simp [pixelOf, Display.clear]

/-- Two displays with the same pixels are the same display. -/
theorem display_ext {d d' : Display} (h : ∀ y x, pixelOf d y x = pixelOf d' y x) : d = d' := by
  apply Vector.ext
  intro i hi
  apply Vector.ext
  intro j hj
  exact h ⟨i, hi⟩ ⟨j, hj⟩

theorem State.key_setKey (s : State) (k : Nibble) (b : Bool) (j : Nibble) :
    (s.setKey k b).key j = if j = k then b else s.key j := by
  simp only [State.key, State.setKey, Vector.getElem_set]
  by_cases h : j = k
  · simp [h]
  · have : ¬ k.toNat = j.toNat := fun e => h (BitVec.eq_of_toNat_eq e.symm)
    simp [h, this]

/-! Flags -/

@[simp] theorem flagByte_toNat (c : Bool) : (flagByte c).toNat = if c then 1 else 0 := by cases c <;> rfl

theorem carryFlag_toNat (a b : Byte) : (carryFlag a b).toNat = if a.toNat + b.toNat > 255 then 1 else 0 := by
  simp [carryFlag]

theorem noBorrowFlag_toNat (a b : Byte) : (noBorrowFlag a b).toNat = if a.toNat > b.toNat then 1 else 0 := by
  simp [noBorrowFlag]

/-! The drawing loop (R151) -/

/-- A canvas after the first `n` columns of a row: the pixels met by a lit bit are flipped, and the collision is raised if one
of them was lit. -/
theorem Canvas.drawColumns_spec (c : Canvas) (b : Byte) (ox : Nat) (y : Fin 32) (n : Nat) (hn : n ≤ 8) :
    (∀ (y' : Fin 32) (x' : Fin 64), pixelOf (c.drawColumns b ox y n).disp y' x' =
      (pixelOf c.disp y' x' ^^ decide (y' = y ∧ ∃ col, col < n ∧ x'.val = (ox + col) % 64 ∧ b.getLsbD (7 - col) = true))) ∧
    ((c.drawColumns b ox y n).hit = true ↔ c.hit = true ∨ ∃ col x', col < n ∧ (x' : Fin 64).val = (ox + col) % 64 ∧
      b.getLsbD (7 - col) = true ∧ pixelOf c.disp y x' = true) := by
  induction n with
  | zero => simp [Canvas.drawColumns]
  | succ n ih =>
    obtain ⟨ih1, ih2⟩ := ih (by omega)
    have hfresh : ∀ x' : Fin 64, x'.val = (ox + n) % 64 →
        ¬ ∃ col, col < n ∧ x'.val = (ox + col) % 64 ∧ b.getLsbD (7 - col) = true := by
      rintro x' hx ⟨col, hc, hx', _⟩
      omega
    rw [Canvas.drawColumns]
    by_cases hb : b.getLsbD (7 - n) = true
    · have hval : (Fin.ofNat 64 (ox + n)).val = (ox + n) % 64 := rfl
      simp only [hb, if_true, Canvas.toggle, pixelOf_flipPixel, Bool.or_eq_true, ih2]
      constructor
      · intro y' x'
        by_cases hpos : y' = y ∧ x' = Fin.ofNat 64 (ox + n)
        · obtain ⟨rfl, rfl⟩ := hpos
          have hex : ∃ col, col < n + 1 ∧ (Fin.ofNat 64 (ox + n)).val = (ox + col) % 64 ∧ b.getLsbD (7 - col) = true :=
            ⟨n, by omega, hval, hb⟩
          rw [if_pos ⟨rfl, rfl⟩, ih1, decide_eq_true (p := y' = y' ∧ ∃ col, col < n + 1 ∧ _ ∧ _) ⟨rfl, hex⟩,
            decide_eq_false (p := y' = y' ∧ ∃ col, col < n ∧ _ ∧ _) fun h => hfresh _ hval h.2]
          simp
        · rw [if_neg hpos, ih1]
          congr 1
          apply decide_eq_decide.mpr
          constructor
          · rintro ⟨hy, col, hc, hx, hl⟩
            exact ⟨hy, col, by omega, hx, hl⟩
          · rintro ⟨hy, col, hc, hx, hl⟩
            refine ⟨hy, col, ?_, hx, hl⟩
            rcases Nat.lt_or_ge col n with h | h
            · exact h
            · have : col = n := by omega
              subst this
              exact absurd ⟨hy, Fin.ext (by rw [hval]; exact hx)⟩ hpos
      · rw [ih1, decide_eq_false (p := y = y ∧ ∃ col, col < n ∧ _ ∧ _) fun h => hfresh _ hval h.2, Bool.xor_false]
        constructor
        · rintro ((h | ⟨col, x', hc, hx, hl, hp⟩) | h)
          · exact .inl h
          · exact .inr ⟨col, x', by omega, hx, hl, hp⟩
          · exact .inr ⟨n, Fin.ofNat 64 (ox + n), by omega, hval, hb, h⟩
        · rintro (h | ⟨col, x', hc, hx, hl, hp⟩)
          · exact .inl (.inl h)
          · rcases Nat.lt_or_ge col n with h | h
            · exact .inl (.inr ⟨col, x', h, hx, hl, hp⟩)
            · have : col = n := by omega
              subst this
              have : x' = Fin.ofNat 64 (ox + col) := Fin.ext (by rw [hval]; exact hx)
              subst this
              exact .inr hp
    · simp only [hb, Bool.false_eq_true, if_false]
      have hsame : ∀ (P : Nat → Prop), (∃ col, col < n + 1 ∧ P col ∧ b.getLsbD (7 - col) = true) ↔
          ∃ col, col < n ∧ P col ∧ b.getLsbD (7 - col) = true := by
        intro P
        constructor
        · rintro ⟨col, hc, hP, hl⟩
          refine ⟨col, ?_, hP, hl⟩
          rcases Nat.lt_or_ge col n with h | h
          · exact h
          · have : col = n := by omega
            subst this
            exact absurd hl hb
        · rintro ⟨col, hc, hP, hl⟩
          exact ⟨col, by omega, hP, hl⟩
      constructor
      · intro y' x'
        rw [ih1]
        congr 1
        exact decide_eq_decide.mpr (and_congr_right fun _ => (hsame _).symm)
      · rw [ih2]
        apply or_congr_right
        constructor
        · rintro ⟨col, x', hc, hx, hl, hp⟩
          exact ⟨col, x', by omega, hx, hl, hp⟩
        · rintro ⟨col, x', hc, hx, hl, hp⟩
          refine ⟨col, x', ?_, hx, hl, hp⟩
          rcases Nat.lt_or_ge col n with h | h
          · exact h
          · have : col = n := by omega
            subst this
            exact absurd hl hb

end Sys2Proof.Machine
end

