-- ==== Sys2Proof/Laws/Frame.lean ====
section
/-! SUPPORT. Frames, composed once: `OnlyChanges` is reflexive, transitive and monotone, and each update of the state changes its own
part alone; and the writes to memory keep the invariant. -/

namespace Sys2Proof.Safety

open Sys2Proof.Machine

theorem SamePart.refl (p : Part) (s : State) : SamePart p s s := by
  cases p <;> simp [SamePart]

theorem SamePart.trans {p : Part} {s t u : State} (h : SamePart p s t) (h' : SamePart p t u) : SamePart p s u := by
  cases p <;> simp_all [SamePart]

theorem OnlyChanges.refl (ps : List Part) (s : State) : OnlyChanges ps s s :=
  ⟨rfl, rfl, rfl, fun p _ => SamePart.refl p s⟩

theorem OnlyChanges.trans {ps : List Part} {s t u : State} (h : OnlyChanges ps s t) (h' : OnlyChanges ps t u) :
    OnlyChanges ps s u :=
  ⟨h'.1.trans h.1, h'.2.1.trans h.2.1, h'.2.2.1.trans h.2.2.1, fun p hp => (h.2.2.2 p hp).trans (h'.2.2.2 p hp)⟩

theorem OnlyChanges.mono {ps qs : List Part} {s t : State} (h : OnlyChanges ps s t) (hs : ∀ p, p ∈ ps → p ∈ qs) :
    OnlyChanges qs s t :=
  ⟨h.1, h.2.1, h.2.2.1, fun p hp => h.2.2.2 p fun hp' => hp (hs p hp')⟩

/-! One lemma per update -/

theorem onlyChanges_setReg (s : State) (x : Nibble) (b : Byte) : OnlyChanges [.regs] s (s.setReg x b) :=
  ⟨rfl, rfl, rfl, fun p hp => by cases p <;> simp_all [SamePart]⟩

theorem onlyChanges_setRegFlag (s : State) (x : Nibble) (b f : Byte) : OnlyChanges [.regs] s (s.setRegFlag x b f) :=
  (onlyChanges_setReg s x b).trans (onlyChanges_setReg _ vf f)

theorem onlyChanges_setI (s : State) (w : Word) : OnlyChanges [.index] s (s.setI w) :=
  ⟨rfl, rfl, rfl, fun p hp => by cases p <;> simp_all [SamePart]⟩

theorem onlyChanges_setPc (s : State) (n : Nat) : OnlyChanges [.pc] s (s.setPc n) :=
  ⟨rfl, rfl, rfl, fun p hp => by cases p <;> simp_all [SamePart]⟩

theorem onlyChanges_advance (s : State) (a : Advance) : OnlyChanges [.pc] s (s.advance a) := by
  cases a
  · exact onlyChanges_setPc s _
  · exact onlyChanges_setPc s _
  · exact OnlyChanges.refl _ s

theorem onlyChanges_setDT (s : State) (b : Byte) : OnlyChanges [.delay] s (s.setDT b) :=
  ⟨rfl, rfl, rfl, fun p hp => by cases p <;> simp_all [SamePart]⟩

theorem onlyChanges_setST (s : State) (b : Byte) : OnlyChanges [.sound] s (s.setST b) :=
  ⟨rfl, rfl, rfl, fun p hp => by cases p <;> simp_all [SamePart]⟩

theorem onlyChanges_setDisp (s : State) (d : Display) : OnlyChanges [.disp] s (s.setDisp d) :=
  ⟨rfl, rfl, rfl, fun p hp => by cases p <;> simp_all [SamePart]⟩

theorem onlyChanges_setKey (s : State) (k : Nibble) (b : Bool) : OnlyChanges [.keys] s (s.setKey k b) :=
  ⟨rfl, rfl, rfl, fun p hp => by cases p <;> simp_all [SamePart]⟩

theorem onlyChanges_armWait (s : State) (x : Nibble) : OnlyChanges [.wait] s (s.armWait x) :=
  ⟨rfl, rfl, rfl, fun p hp => by cases p <;> simp_all [SamePart]⟩

theorem onlyChanges_clearWait (s : State) : OnlyChanges [.wait] s s.clearWait :=
  ⟨rfl, rfl, rfl, fun p hp => by cases p <;> simp_all [SamePart]⟩

theorem onlyChanges_countDraw (s : State) : OnlyChanges [.draws] s s.countDraw :=
  ⟨rfl, rfl, rfl, fun p hp => by cases p <;> simp_all [SamePart]⟩

theorem onlyChanges_setCell (s : State) (k : Fin 16) (w : Word) : OnlyChanges [.stack] s (s.setCell k w) :=
  ⟨rfl, rfl, rfl, fun p hp => by cases p <;> simp_all [SamePart]⟩

theorem onlyChanges_setSp (s : State) (n : Fin 17) : OnlyChanges [.stack] s (s.setSp n) :=
  ⟨rfl, rfl, rfl, fun p hp => by cases p <;> simp_all [SamePart]⟩

theorem onlyChanges_writeByte (s : State) (a : Nat) (b : Byte) : OnlyChanges [.mem] s (s.writeByte a b) :=
  ⟨rfl, rfl, rfl, fun p hp => by cases p <;> simp_all [SamePart]⟩

theorem onlyChanges_writeBytes (s : State) (a : Nat) (bs : List Byte) : OnlyChanges [.mem] s (s.writeBytes a bs) := by
  induction bs generalizing s a with
  | nil => exact OnlyChanges.refl _ s
  | cons b rest ih => exact (onlyChanges_writeByte s a b).trans (ih _ _)

theorem onlyChanges_storeRegs (s : State) (a n : Nat) : OnlyChanges [.mem] s (s.storeRegs a n) := by
  induction n with
  | zero => exact OnlyChanges.refl _ s
  | succ n ih => exact ih.trans (onlyChanges_writeByte _ _ _)

theorem onlyChanges_loadRegs (s : State) (a n : Nat) : OnlyChanges [.regs] s (s.loadRegs a n) := by
  induction n with
  | zero => exact OnlyChanges.refl _ s
  | succ n ih => exact ih.trans (onlyChanges_setReg _ _ _)

/-! The invariant (R25) under writes to memory -/

theorem stateInv_writeByte {s : State} (h : StateInv s) (a : Nat) (b : Byte) : StateInv (s.writeByte a b) :=
  ⟨h.1, h.2.1, State.writeByte_wf h.2.2 a b⟩

theorem stateInv_writeBytes {s : State} (h : StateInv s) (a : Nat) (bs : List Byte) : StateInv (s.writeBytes a bs) := by
  induction bs generalizing s a with
  | nil => exact h
  | cons b rest ih => exact ih (stateInv_writeByte h a b) (a + 1)

theorem stateInv_storeRegs {s : State} (h : StateInv s) (a n : Nat) : StateInv (s.storeRegs a n) := by
  induction n with
  | zero => exact h
  | succ n ih => exact stateInv_writeByte ih _ _

/-! The way `pc` moves -/

theorem advanced_advance2 (s : State) : Advanced 2 s (s.advance .advance2) := by simp [Advanced]

theorem advanced_advance4 (s : State) : Advanced 4 s (s.advance .advance4) := by simp [Advanced]

/-- A skip advances by 4 exactly when its condition holds (R108). -/
theorem skipped_advance {c : Bool} {p : Prop} (h : c = true ↔ p) (s : State) : Skipped p s (s.advance (skipOutcome c)) := by
  constructor
  · intro hp
    rw [h.mpr hp]
    exact advanced_advance4 s
  · intro hp
    have : c = false := by cases c <;> simp_all
    rw [this]
    exact advanced_advance2 s

/-- The registers after `V[x] <- b; VF <- f` (R13). -/
theorem writesRegFlag_setRegFlag {s : State} (x : Nibble) {b f : Byte} {nb nf : Nat} (hb : b.toNat = nb) (hf : f.toNat = nf) :
    WritesRegFlag x nb nf s (s.setRegFlag x b f) := by
  refine ⟨?_, fun h => ?_, fun r h1 h2 => ?_⟩
  · simp [State.reg_setRegFlag, hf]
  · simp [State.reg_setRegFlag, h, hb]
  · simp [State.reg_setRegFlag, h1, h2]

/-- The registers after `V[x] <- b`. -/
theorem writesReg_setReg {s : State} (x : Nibble) {b : Byte} {nb : Nat} (hb : b.toNat = nb) :
    WritesReg x nb s (s.setReg x b) :=
  ⟨by simp [hb], fun r h => by simp [State.reg_setReg, h]⟩

end Sys2Proof.Safety
end

