-- ==== Sys2Proof/Laws/PerInstr.lean ====
section
/-! SUPPORT. Statements made per instruction. Family `EncodeRow`: the bits an instruction's word fixes are those of its row in
the opcode table (mask and match). -/

namespace Sys2Proof.Laws.EncodeRow

/-- The encoded word, under the row's mask, is the row's match value (spec/opcode_table.json). -/
def Statement (i : Instr) : Prop := encode i &&& rowMask i = rowMatch i

theorem cls (x : Nibble) : Statement (.cls x) := formatI_and_mask_kk _ _ _

theorem ret (x : Nibble) : Statement (.ret x) := formatI_and_mask_kk _ _ _

theorem sys (nnn : Addr) : Statement (.sys nnn) := formatA_and_mask _ _

theorem jp (nnn : Addr) : Statement (.jp nnn) := formatA_and_mask _ _

theorem call (nnn : Addr) : Statement (.call nnn) := formatA_and_mask _ _

theorem seImm (x : Nibble) (kk : Byte) : Statement (.seImm x kk) := formatI_and_mask _ _ _

theorem sneImm (x : Nibble) (kk : Byte) : Statement (.sneImm x kk) := formatI_and_mask _ _ _

theorem seReg (x : Nibble) (y : Nibble) (n : Nibble) : Statement (.seReg x y n) := formatR_and_mask _ _ _ _

theorem ldImm (x : Nibble) (kk : Byte) : Statement (.ldImm x kk) := formatI_and_mask _ _ _

theorem addImm (x : Nibble) (kk : Byte) : Statement (.addImm x kk) := formatI_and_mask _ _ _

theorem ldReg (x : Nibble) (y : Nibble) : Statement (.ldReg x y) := formatR_and_mask_n _ _ _ _

theorem orReg (x : Nibble) (y : Nibble) : Statement (.orReg x y) := formatR_and_mask_n _ _ _ _

theorem andReg (x : Nibble) (y : Nibble) : Statement (.andReg x y) := formatR_and_mask_n _ _ _ _

theorem xorReg (x : Nibble) (y : Nibble) : Statement (.xorReg x y) := formatR_and_mask_n _ _ _ _

theorem addReg (x : Nibble) (y : Nibble) : Statement (.addReg x y) := formatR_and_mask_n _ _ _ _

theorem subReg (x : Nibble) (y : Nibble) : Statement (.subReg x y) := formatR_and_mask_n _ _ _ _

theorem shrReg (x : Nibble) (y : Nibble) : Statement (.shrReg x y) := formatR_and_mask_n _ _ _ _

theorem subnReg (x : Nibble) (y : Nibble) : Statement (.subnReg x y) := formatR_and_mask_n _ _ _ _

theorem shlReg (x : Nibble) (y : Nibble) : Statement (.shlReg x y) := formatR_and_mask_n _ _ _ _

theorem sneReg (x : Nibble) (y : Nibble) (n : Nibble) : Statement (.sneReg x y n) := formatR_and_mask _ _ _ _

theorem ldI (nnn : Addr) : Statement (.ldI nnn) := formatA_and_mask _ _

theorem jpV0 (nnn : Addr) : Statement (.jpV0 nnn) := formatA_and_mask _ _

theorem rnd (x : Nibble) (kk : Byte) : Statement (.rnd x kk) := formatI_and_mask _ _ _

theorem drw (x : Nibble) (y : Nibble) (n : Nibble) : Statement (.drw x y n) := formatR_and_mask _ _ _ _

theorem skp (x : Nibble) : Statement (.skp x) := formatI_and_mask_kk _ _ _

theorem sknp (x : Nibble) : Statement (.sknp x) := formatI_and_mask_kk _ _ _

theorem ldVxDT (x : Nibble) : Statement (.ldVxDT x) := formatI_and_mask_kk _ _ _

theorem ldVxK (x : Nibble) : Statement (.ldVxK x) := formatI_and_mask_kk _ _ _

theorem ldDTVx (x : Nibble) : Statement (.ldDTVx x) := formatI_and_mask_kk _ _ _

theorem ldSTVx (x : Nibble) : Statement (.ldSTVx x) := formatI_and_mask_kk _ _ _

theorem addIVx (x : Nibble) : Statement (.addIVx x) := formatI_and_mask_kk _ _ _

theorem ldFVx (x : Nibble) : Statement (.ldFVx x) := formatI_and_mask_kk _ _ _

theorem ldBVx (x : Nibble) : Statement (.ldBVx x) := formatI_and_mask_kk _ _ _

theorem ldMemVx (x : Nibble) : Statement (.ldMemVx x) := formatI_and_mask_kk _ _ _

theorem ldVxMem (x : Nibble) : Statement (.ldVxMem x) := formatI_and_mask_kk _ _ _

end Sys2Proof.Laws.EncodeRow
end

