-- ==== Sys2Proof/Tests/Slice0.lean ====
section
/-! SUPPORT. Tests: the well-formedness check, one-step vectors of 95_test_vectors.md (each named by its id there), the events, and
for every statement with hypotheses a concrete state that meets them, at the boundary values of its clauses. -/

namespace Sys2Proof.Tests

open Sys2Proof.Machine Sys2Proof.Safety

/-! Well-formedness: the one check, on both bytes it refuses, and the words next to them -/

theorem test_wf_refuses_sys_that_is_cls : (Instr.sys 0x7E0#12).WellFormed = false := by decide

theorem test_wf_refuses_sys_that_is_ret : (Instr.sys 0x0EE#12).WellFormed = false := by decide

theorem test_wf_admits_sys : (Instr.sys 0x0E1#12).WellFormed = true ∧ (Instr.sys 0xFFF#12).WellFormed = true := by decide

/-! The host's view of the decoder -/

theorem test_decodeTableWord : decodeTableWord 16 0xD7A5 = some (.drw 0x7 0xA 0x5) ∧ decodeTableWord 16 0x8AB8 = none := by
  decide

/-- The state one step after the word is placed at `pc`, if the step goes on. -/
def after (s : State) (w : Nat) : Option State :=
  match step (s.withFetchWord 16 w) with
  | .next t => some t
  | .fault _ => none
  | .refused _ => none

/-- A check on the state after one step. -/
def holds (o : Option State) (p : State → Bool) : Bool :=
  match o with
  | some t => p t
  | none => false

/-- The reset state with three registers set. -/
def regs (a x b : Nat) (y z : Nibble) : State :=
  ((State.reset.setReg y (BitVec.ofNat 8 a)).setReg z (BitVec.ofNat 8 x)).setReg vf (BitVec.ofNat 8 b)

/-- The reset state with `sp` and one stack cell set, and `pc` at `a`. -/
def stacked (n : Fin 17) (k : Fin 16) (w : Word) (a : Nat) : State := ((State.reset.setSp n).setCell k w).setPc a

/-- The reset state with other straps. -/
def strapped (shift inc jump : Bool) (s : State) : State :=
  { s with quirks := { shiftUsesVy := shift, memOpsIncrementI := inc, jumpWithOffsetUsesVx0 := jump } }

/-! Control flow (section 2.1) -/

theorem test_V1_sys : holds (after State.reset 0x0123) (fun t => t.pc == 0x202) := by decide

theorem test_V5_ret_at_full_stack :
    holds (after (stacked 16 15 0xABC 0x300) 0x00EE) (fun t => t.pc == 0xABC && t.sp == 15 && t.stack[15] == 0xABC) := by
  decide

theorem test_V6_ret_ignores_x : holds (after (stacked 1 0 0x204 0x300) 0x07EE) (fun t => t.pc == 0x204 && t.sp == 0) := by
  decide

theorem test_V9_jp_odd : holds (after State.reset 0x1201) (fun t => t.pc == 0x201) := by decide

theorem test_V11_call_last_cell :
    holds (after (stacked 15 14 0x202 0x250) 0x2300) (fun t => t.pc == 0x300 && t.sp == 16 && t.stack[15] == 0x252) := by
  decide

theorem test_V12_call_overflow :
    holds (after (stacked 16 15 0x202 0x250) 0x2300) (fun t => t.pc == 0x250 && t.sp == 16 && t.stack[15] == 0x202) := by
  decide

theorem test_V14_V15_se_imm : holds (after (regs 0x33 0 0 2 3) 0x3233) (fun t => t.pc == 0x204) ∧
    holds (after (regs 0x34 0 0 2 3) 0x3233) (fun t => t.pc == 0x202) := by decide

theorem test_V16_V17_sne_imm : holds (after (regs 0x33 0 0 2 3) 0x4233) (fun t => t.pc == 0x202) ∧
    holds (after (regs 0x34 0 0 2 3) 0x4233) (fun t => t.pc == 0x204) := by decide

theorem test_V20_se_reg_ignores_n : holds (after (regs 7 7 0 1 2) 0x5127) (fun t => t.pc == 0x204) := by decide

theorem test_V21_V22_sne_reg : holds (after (regs 7 8 0 1 2) 0x9120) (fun t => t.pc == 0x204) ∧
    holds (after (regs 7 7 0 1 2) 0x9120) (fun t => t.pc == 0x202) := by decide

theorem test_V25_skip_wraps : holds (after (State.reset.setPc 0xFFE) 0x3000) (fun t => t.pc == 0x002) := by decide

theorem test_V29_jump_offset_wraps : holds (after (State.reset.setReg 0 0xFF) 0xBFFF) (fun t => t.pc == 0x0FE) := by decide

theorem test_V30_jump_offset_strap :
    holds (after (strapped false true true (State.reset.setReg 2 0x20)) 0xB2F0) (fun t => t.pc == 0x310) := by decide

theorem test_V31_fetch_wraps :
    holds (after (State.reset.setPc 0xFFF) 0x6A42) (fun t => t.reg 0xA == 0x42 && t.pc == 0x001) := by decide

/-! Load, arithmetic, logic, shift, random (section 2.2) -/

theorem test_A2_ld_imm_vf : holds (after State.reset 0x6F07) (fun t => t.reg 0xF == 0x07 && t.pc == 0x202) := by decide

theorem test_A5_add_imm_keeps_vf :
    holds (after (regs 0xFF 0 1 1 2) 0x7101) (fun t => t.reg 1 == 0x00 && t.reg 0xF == 0x01) := by decide

theorem test_A6_ld_reg : holds (after (regs 0x99 0 1 3 2) 0x8230) (fun t => t.reg 2 == 0x99 && t.reg 0xF == 0x01) := by decide

theorem test_A13_or_vf_source : holds (after (regs 0x10 0 1 1 2) 0x81F1) (fun t => t.reg 1 == 0x11 && t.reg 0xF == 0) := by
  decide

theorem test_A12_or_vf_destination : holds (after (regs 0 0xF0 1 1 2) 0x8F21) (fun t => t.reg 0xF == 0x00) := by decide

theorem test_A9_and : holds (after (regs 0xF3 0x3C 1 1 2) 0x8122) (fun t => t.reg 1 == 0x30 && t.reg 0xF == 0) := by decide

theorem test_A10_xor : holds (after (regs 0xFF 0x0F 1 1 2) 0x8123) (fun t => t.reg 1 == 0xF0 && t.reg 0xF == 0) := by decide

theorem test_A14_add_carry : holds (after (regs 0xC8 0x64 0 1 2) 0x8124) (fun t => t.reg 1 == 0x2C && t.reg 0xF == 1) := by
  decide

theorem test_A20_add_vf_destination : holds (after (regs 0 2 5 1 2) 0x8F24) (fun t => t.reg 0xF == 0) := by decide

theorem test_A23_sub_borrow : holds (after (regs 5 0xA 1 1 2) 0x8125) (fun t => t.reg 1 == 0xFB && t.reg 0xF == 0) := by
  decide

theorem test_A24_sub_equal : holds (after (regs 7 7 1 1 2) 0x8125) (fun t => t.reg 1 == 0 && t.reg 0xF == 0) := by decide

theorem test_A28_subn : holds (after (regs 5 0xA 0 1 2) 0x8127) (fun t => t.reg 1 == 5 && t.reg 0xF == 1) := by decide

theorem test_A29_subn_borrow : holds (after (regs 0xA 5 1 1 2) 0x8127) (fun t => t.reg 1 == 0xFB && t.reg 0xF == 0) := by
  decide

theorem test_A31_shr : holds (after (regs 5 8 0 1 2) 0x8126) (fun t => t.reg 1 == 2 && t.reg 0xF == 1 && t.reg 2 == 8) := by
  decide

theorem test_A36_shr_strap_vf_source :
    holds (after (strapped true true false (regs 0xAA 0 3 1 2)) 0x81F6) (fun t => t.reg 1 == 1 && t.reg 0xF == 1) := by decide

theorem test_A37_shl : holds (after (regs 0x81 0 0 1 2) 0x812E) (fun t => t.reg 1 == 2 && t.reg 0xF == 1) := by decide

theorem test_A39_shl_strap : holds (after (strapped true true false (regs 1 0xC0 0 1 2)) 0x812E)
    (fun t => t.reg 1 == 0x80 && t.reg 0xF == 1 && t.reg 2 == 0xC0) := by decide

theorem test_A41_undecoded : holds (after (regs 1 2 1 1 2) 0x8128) (fun t => t.reg 1 == 1 && t.reg 0xF == 1 && t.pc == 0x202) := by
  decide

/-- A45: a zero mask leaves nothing of the byte drawn, whatever it is. -/
theorem test_A45_rnd_mask_zero : ∃ t, after (regs 9 0 0 3 2) 0xC300 = some t ∧ t.reg 3 = 0 := by
  refine ⟨_, rfl, ?_⟩
  exact BitVec.and_zero

theorem test_A46_rnd_no_source : holds (after { regs 9 0 0 3 2 with rngPresent := false } 0xC3FF)
    (fun t => t.reg 3 == 0 && t.rngDraws == 0 && t.pc == 0x202) := by decide

/-! Index register and memory (section 2.3) -/

theorem test_M2_ld_i : holds (after State.reset 0xAFFF) (fun t => t.i == 0x0FFF) := by decide

theorem test_M5_add_i_wraps : holds (after ((regs 2 0 0 2 3).setI 0xFFFF) 0xF21E) (fun t => t.i == 0x0001 && t.reg 0xF == 0) := by
  decide

theorem test_M7_ld_f_low_nibble : holds (after (regs 0x1A 0 0 4 3) 0xF429) (fun t => t.i == 0x0082) := by decide

theorem test_M15_bcd_wraps : holds (after ((regs 123 0 0 3 4).setI 0x0FFE) 0xF333)
    (fun t => t.readByte 0xFFE == 1 && t.readByte 0xFFF == 2 && t.readByte 0 == 3 && t.i == 0xFFE) := by decide

theorem test_M17_bcd_over_font : holds (after ((regs 234 0 0 3 4).setI 0x0050) 0xF333)
    (fun t => t.readByte 0x50 == 2 && t.readByte 0x51 == 3 && t.readByte 0x52 == 4 && t.readByte 0x53 == 0x90) := by decide

theorem test_M18_store : holds (after (((regs 0x11 0x22 0 0 1).setReg 4 0x55).setI 0x300) 0xF155)
    (fun t => t.readByte 0x300 == 0x11 && t.readByte 0x301 == 0x22 && t.readByte 0x302 == 0 && t.i == 0x302) := by decide

theorem test_M23_store_wraps : holds (after (((regs 1 2 0 0 1).setReg 2 3).setI 0xFFFE) 0xF255)
    (fun t => t.readByte 0xFFE == 1 && t.readByte 0xFFF == 2 && t.readByte 0 == 3 && t.i == 1) := by decide

theorem test_M25_load_strap_off : holds (after (strapped false false false
      ((((State.reset.writeByte 0x400 9).writeByte 0x401 8).writeByte 0x402 7).setI 0x400)) 0xF265)
    (fun t => t.reg 0 == 9 && t.reg 1 == 8 && t.reg 2 == 7 && t.reg 3 == 0 && t.i == 0x400) := by decide

/-- M26: with the font table of R21. -/
theorem test_M26_load_font : holds (after (State.reset.setI 0x50) 0xFF65)
    (fun t => t.reg 0 == 0xF0 && t.reg 5 == 0x20 && t.reg 0xD == 0x80 && t.reg 0xF == 0xF0 && t.i == 0x60) := by decide

/-! Display (section 2.4) -/

theorem test_G2_cls_ignores_x : holds (after (State.reset.setDisp (flipPixel Display.clear 0 0)) 0x05E0)
    (fun t => t.pixel 0 0 == false && t.pc == 0x202) := by decide

/-- G3: the hash of the glyph drawn, with the font table of R21. -/
theorem test_G3_draw_glyph_hash : holds (after (State.reset.setI 0x50) 0xD015)
    (fun t => displayHash t == 0xCB419733#32 && t.reg 0xF == 0) := by decide +kernel

theorem test_G11_draw_clips_below : holds (after (((((regs 0 31 0 0 1).writeByte 0x300 0).writeByte 0x301 0x80).setI 0x300).setDisp
      (flipPixel Display.clear 0 0)) 0xD012) (fun t => t.pixel 0 0 && t.reg 0xF == 0) := by decide

/-! Keys and timers (section 2.5) -/

theorem test_KT3_skp_low_nibble : holds (after ((regs 0x1A 0 0 2 3).setKey 0xA true) 0xE29E) (fun t => t.pc == 0x204) := by
  decide

theorem test_KT4_KT5_sknp : holds (after (regs 5 0 0 2 3) 0xE2A1) (fun t => t.pc == 0x204) ∧
    holds (after ((regs 5 0 0 2 3).setKey 5 true) 0xE2A1) (fun t => t.pc == 0x202) := by decide

theorem test_KT7_read_dt : holds (after (State.reset.setDT 0x2A) 0xF307) (fun t => t.reg 3 == 0x2A && t.dt == 0x2A) := by decide

theorem test_KT8_write_dt : holds (after (regs 0x3C 0 0 3 4) 0xF315) (fun t => t.dt == 60 && t.st == 0) := by decide

theorem test_KT10_write_st : holds (after (State.reset.setST 9) 0xF018) (fun t => t.st == 0 && t.dt == 0 && !tone t) := by decide

theorem test_KT12_wait : holds (after State.reset 0xFF0A) (fun t => t.pc == 0x200 && t.waitPending && t.waitTarget == 0xF) := by
  decide

/-! Events (section 2.7) -/

theorem test_E1_create : snapshot State.reset = ⟨0x200, 0, Vector.replicate 16 0, 0, 0, 0, 0, 0xD2063DC5⟩ := by
  decide +kernel

theorem test_E4_load_too_large : (loadProgram (List.replicate 3585 0xAB) State.reset).1 = .failure := by decide +kernel

theorem test_E5_load_keeps_wait : ((loadProgram [0xAA, 0xBB] ((State.reset.armWait 3).setPc 0x2F0)).2.waitPending,
    (loadProgram [0xAA, 0xBB] (State.reset.setPc 0x2F0)).2.fetchWordAt 0x200) = (true, 0xAABB) := by decide

theorem test_E6_tick : ((tickTimers (State.reset.setDT 2)).dt, (tickTimers (State.reset.setDT 2)).st) = (1, 0) := by decide

theorem test_E9_reset_restores_font : (resetEvent (strapped true false true (State.reset.writeByte 0x50 0xEE))).readByte 0x50 = 0xF0 ∧
    (resetEvent (strapped true false true State.reset)).quirks = (strapped true false true State.reset).quirks := by decide

/-- R7, R21: `FONT` is a parameter; another table lies where the font lies, and nowhere else, and `reset` restores it. -/
theorem test_font_is_a_parameter :
    ((State.create defaultQuirks { defaultParams with font := Vector.replicate 80 0xAA } true).readByte 0x9F,
      (State.create defaultQuirks { defaultParams with font := Vector.replicate 80 0xAA } true).readByte 0xA0) = (0xAA, 0) ∧
    (resetEvent ((State.create defaultQuirks { defaultParams with font := Vector.replicate 80 0xAA } true).writeByte 0x50 1)).readByte
      0x50 = 0xAA := by decide

theorem test_E12_keys_out_of_range : keyDown 16 State.reset = State.reset ∧ keyUp (-1) State.reset = State.reset := by
  exact ⟨rfl, rfl⟩

theorem test_E14_key_down_resolves : ((keyDown 7 ((State.reset.armWait 5).setPc 0x204)).reg 5,
    (keyDown 7 ((State.reset.armWait 5).setPc 0x204)).pc, (keyDown 7 ((State.reset.armWait 5).setPc 0x204)).waitPending) =
    (7, 0x204, false) := by decide

/-! Witnesses: each statement with hypotheses has a state that meets them, clause by clause -/

/-- The reset state is in the invariant. -/
theorem reset_stateInv : StateInv State.reset := ⟨by decide, by decide, by decide⟩

/-- A state that fetches the word `w` at 0x200. -/
def placed (s : State) (w : Nat) : State := s.withFetchWord 16 w

theorem witness_DecodeEncodeReturnsInstruction : (Instr.sys 0x0E1#12).WellFormed = true ∧ (Instr.drw 15 15 15).WellFormed = true := by
  decide

theorem witness_EncodeDecodeReturnsWord : decodeWord 0x0FEE#16 = .ok (.ret 0xF#4) := by decide

theorem witness_UndecodedWordsAreThoseOfTheTable : decodeWord 0x800D#16 = .error .family8 ∧ decodeWord 0xEFA0#16 = .error .familyE ∧
    decodeWord 0xFFFF#16 = .error .familyF ∧ decodeWord 0x00E1#16 = .ok (.sys 0x0E1#12) := by decide

theorem witness_StepRunsDecodedInstruction : (placed State.reset 0x1200).waitPending = false ∧
    Fetches (placed State.reset 0x1200) 0x1200#16 ∧ decodeWord 0x1200#16 = .ok (.jp 0x200#12) := by
  unfold Fetches; decide

theorem witness_StepRunsPlacedWord : (State.reset.setPc 0xFFF).memWf = true ∧ decodeWord 0x00E0#16 = .ok (.cls 0#4) := by
  decide

theorem witness_UndecodedWordOnlyAdvances : (Fetches (placed State.reset 0x8AB8) 0x8AB8#16 ∧
    (placed State.reset 0x8AB8).waitPending = false ∧ decodeWord 0x8AB8#16 = .error .family8) ∧
    Fetches State.reset 0x0000#16 ∧ State.reset.waitPending = false ∧ decodeWord 0x0000#16 = .ok (.sys 0#12) := by
  unfold Fetches; decide

theorem witness_PendingWaitStallsUntilKeyOrReset : (State.reset.armWait 0xF#4).waitPending = true := rfl

theorem witness_InvariantKeptByStep : StateInv State.reset ∧ ∃ t, step State.reset = .next t := ⟨reset_stateInv, _, rfl⟩

theorem witness_InvariantKeptByEvents :
    StateInv State.reset ∧ ∃ t, runEvents [.tickTimers, .keyDown 3, .reset] State.reset = .next t := ⟨reset_stateInv, _, rfl⟩

theorem witness_StrapsNeverChange : (∃ t, exec (.cls 0) State.reset = .next t) ∧
    ∃ t, runEvents [.reset, .keyUp 15] State.reset = .next t := ⟨⟨_, rfl⟩, _, rfl⟩

/-- Both stores change a byte. -/
theorem witness_OnlyStoresWriteMemory :
    (∃ t, exec (.ldBVx 3) ((regs 9 0 0 3 4).setI 0x300) = .next t ∧ t.readByte 0x302 ≠ ((regs 9 0 0 3 4).setI 0x300).readByte 0x302) ∧
    ∃ t, exec (.ldMemVx 0) ((regs 9 0 0 0 4).setI 0x300) = .next t ∧
      t.readByte 0x300 ≠ ((regs 9 0 0 0 4).setI 0x300).readByte 0x300 := ⟨⟨_, rfl, by decide⟩, _, rfl, by decide⟩

/-- CALL writes a cell and raises `sp`, RET lowers it, at the ends of the range. -/
theorem witness_OnlyCallAndRetMoveTheStack :
    (∃ t, exec (.call 0x300) (stacked 15 0 0 0x200) = .next t ∧ t.stack ≠ (stacked 15 0 0 0x200).stack ∧
      t.sp ≠ (stacked 15 0 0 0x200).sp) ∧
    ∃ t, exec (.ret 0) (stacked 16 15 0xABC 0x200) = .next t ∧ t.sp ≠ (stacked 16 15 0xABC 0x200).sp :=
  ⟨⟨_, rfl, by decide, by decide⟩, _, rfl, by decide⟩

theorem witness_OnlyClsAndDrwWriteDisplay :
    (∃ t, exec (.cls 0) (State.reset.setDisp (flipPixel Display.clear 31 63)) = .next t ∧
      t.disp ≠ (State.reset.setDisp (flipPixel Display.clear 31 63)).disp) ∧
    ∃ t, exec (.drw 0 0 1) (State.reset.setI 0x50) = .next t ∧ t.disp ≠ (State.reset.setI 0x50).disp :=
  ⟨⟨_, rfl, by decide⟩, _, rfl, by decide⟩

theorem witness_RegistersWrittenOnlyAsListed :
    (∃ t, exec (.addReg 1 2) (regs 0xFF 1 0 1 2) = .next t ∧ t.reg 1 ≠ (regs 0xFF 1 0 1 2).reg 1 ∧
      t.reg 15 ≠ (regs 0xFF 1 0 1 2).reg 15) ∧
    ∃ t, exec (.ldVxMem 2) (State.reset.setI 0x50) = .next t ∧ t.reg 2 ≠ State.reset.reg 2 :=
  ⟨⟨_, rfl, by decide, by decide⟩, _, rfl, by decide⟩

/-- Each clause: `I` by its four writers, DT, ST, the wait, the samples. -/
theorem witness_IndexTimersWaitWrittenOnlyAsListed :
    (∃ t, exec (.ldI 0x2F0) State.reset = .next t ∧ t.i ≠ State.reset.i) ∧
    (∃ t, exec (.addIVx 2) (regs 1 0 0 2 3) = .next t ∧ t.i ≠ (regs 1 0 0 2 3).i) ∧
    (∃ t, exec (.ldMemVx 0) State.reset = .next t ∧ t.i ≠ State.reset.i) ∧
    (∃ t, exec (.ldDTVx 2) (regs 1 0 0 2 3) = .next t ∧ t.dt ≠ (regs 1 0 0 2 3).dt) ∧
    (∃ t, exec (.ldSTVx 2) (regs 1 0 0 2 3) = .next t ∧ t.st ≠ (regs 1 0 0 2 3).st) ∧
    (∃ t, exec (.ldVxK 15) State.reset = .next t ∧ t.waitPending ≠ State.reset.waitPending) ∧
    ∃ t, exec (.rnd 0 0) State.reset = .next t ∧ t.rngDraws ≠ State.reset.rngDraws :=
  ⟨⟨_, rfl, by decide⟩, ⟨_, rfl, by decide⟩, ⟨_, rfl, by decide⟩, ⟨_, rfl, by decide⟩, ⟨_, rfl, by decide⟩, ⟨_, rfl, by decide⟩,
    _, rfl, by decide⟩

theorem witness_SoundTimerIsNeverRead :
    (∃ t, exec (.ldVxDT 3) State.reset = .next t) ∧ ∀ x, Instr.ldVxDT 3 ≠ .ldSTVx x := ⟨⟨_, rfl⟩, by simp⟩

theorem witness_SysOnlyAdvances : (0x0DF#12).toNat % 256 ≠ 0xE0 ∧ (0x0DF#12).toNat % 256 ≠ 0xEE := by decide

/-- `sp` at 1, 16 and 0. -/
theorem witness_RetPopsAndJumps : (stacked 1 0 0x204 0x300).sp.val = (0 : Fin 16).val + 1 ∧
    (stacked 16 15 0x204 0x300).sp.val = (15 : Fin 16).val + 1 ∧ State.reset.sp.val = 0 := by decide

/-- `sp` at 0, 15 and 16, and a cell other than the one written. -/
theorem witness_CallPushesReturnAddress : State.reset.sp.val = (0 : Fin 16).val ∧
    (stacked 15 0 0 0x200).sp.val = (15 : Fin 16).val ∧ (0 : Fin 16) ≠ 15 ∧ (stacked 16 0 0 0x200).sp.val = 16 := by decide

/-- The condition true and false, for the four skips. -/
theorem witness_Skips : (regs 7 7 0 1 2).reg 1 = 7 ∧ (regs 7 8 0 1 2).reg 1 ≠ 8 ∧ (regs 7 7 0 1 2).reg 1 = (regs 7 7 0 1 2).reg 2 ∧
    (regs 7 8 0 1 2).reg 1 ≠ (regs 7 8 0 1 2).reg 2 := by decide

/-- Both values of each strap. -/
theorem witness_Straps : (strapped false false false State.reset).quirks.jumpWithOffsetUsesVx0 = false ∧
    (strapped true true true State.reset).quirks.jumpWithOffsetUsesVx0 = true ∧
    State.reset.quirks.memOpsIncrementI = true ∧ (strapped false false false State.reset).quirks.memOpsIncrementI = false := by
  decide

theorem witness_CallThenRetReturns :
    (stacked 15 0 0 0xFFE).sp.val < 16 ∧ ∃ t, exec (.call 0x300) (stacked 15 0 0 0xFFE) = .next t := ⟨by decide, _, rfl⟩

theorem witness_StackOverflowAndUnderflowSpin :
    ((placed (stacked 16 15 0x202 0x250) 0x2300).waitPending = false ∧ Fetches (placed (stacked 16 15 0x202 0x250) 0x2300) 0x2300#16 ∧
      (placed (stacked 16 15 0x202 0x250) 0x2300).sp.val = 16 ∧ decodeWord 0x2300#16 = .ok (.call 0x300#12)) ∧
    (placed State.reset 0x00EE).waitPending = false ∧ Fetches (placed State.reset 0x00EE) 0x00EE#16 ∧
      (placed State.reset 0x00EE).sp.val = 0 ∧ decodeWord 0x00EE#16 = .ok (.ret 0#4) := by
  unfold Fetches; decide

theorem witness_JumpToItselfIsFixedPoint : (placed State.reset 0x1200).waitPending = false ∧
    Fetches (placed State.reset 0x1200) 0x1200#16 ∧ decodeWord 0x1200#16 = .ok (.jp 0x200#12) ∧
    (placed State.reset 0x1200).pc.toNat = (0x200#12).toNat := by
  unfold Fetches; decide

theorem witness_CopyRegister : State.reset.params.has8xy0 = true ∧
    ({ State.reset with params := { defaultParams with has8xy0 := false } } : State).params.has8xy0 = false := by decide

/-- The source under both values of the strap. -/
theorem witness_ShiftSetsShiftedOutBit :
    (5#8 = if (regs 5 8 0 1 2).quirks.shiftUsesVy then (regs 5 8 0 1 2).reg 2 else (regs 5 8 0 1 2).reg 1) ∧
    8#8 = if (strapped true true true (regs 5 8 0 1 2)).quirks.shiftUsesVy then (strapped true true true (regs 5 8 0 1 2)).reg 2
      else (strapped true true true (regs 5 8 0 1 2)).reg 1 := by decide

theorem witness_RandomIsOneMaskedDraw : State.reset.rngPresent = true ∧
    (State.create defaultQuirks defaultParams false).rngPresent = false := by decide

/-- Canonical memory, and addresses just outside the three bytes stored at 0xFFE, 0xFFF and 0. -/
theorem witness_BcdStoresDigits : (State.reset.setI 0x0FFE).memWf = true ∧
    (∀ k : Nat, k < 3 → 0xFFD % 4096 ≠ ((State.reset.setI 0x0FFE).i.toNat + k) % 4096) ∧
    ∀ k : Nat, k < 3 → 1 % 4096 ≠ ((State.reset.setI 0x0FFE).i.toNat + k) % 4096 := by decide

/-- Canonical memory, the last register of the block, and the addresses just outside it. -/
theorem witness_BlockMoves : (State.reset.setI 0x300).memWf = true ∧ (3#4).toNat ≤ (3#4).toNat ∧ (3#4).toNat < (4#4).toNat ∧
    (∀ k : Nat, k ≤ 3 → 0x304 % 4096 ≠ ((State.reset.setI 0x300).i.toNat + k) % 4096) ∧
    ∀ k : Nat, k ≤ 3 → 0x2FF % 4096 ≠ ((State.reset.setI 0x300).i.toNat + k) % 4096 := by decide

/-- P5: the store at 0x206 writes the word at 0x208. -/
theorem witness_StoredWordIsFetchedNext :
    (((regs 0x6A 0xAA 0 0 1).setI 0x208).setPc 0x206).memWf = true ∧ (0#4).toNat < (1#4).toNat ∧
    (∃ t, exec (.ldMemVx 1) (((regs 0x6A 0xAA 0 0 1).setI 0x208).setPc 0x206) = .next t ∧
      t.pc.toNat % 4096 = ((((regs 0x6A 0xAA 0 0 1).setI 0x208).setPc 0x206).i.toNat + (0#4).toNat) % 4096) ∧
    (0x6AAA#16).toNat = 256 * ((regs 0x6A 0xAA 0 0 1).reg 0).toNat + ((regs 0x6A 0xAA 0 0 1).reg (0#4 + 1#4)).toNat :=
  ⟨by decide, by decide, ⟨_, rfl, by decide⟩, by decide⟩

/-- A pixel the glyph covers, and one it does not. -/
theorem witness_DrawFlipsExactlySpritePixels : SpriteLit (State.reset.setI 0x50) 0 0 1 0 3 ∧ ¬SpriteLit (State.reset.setI 0x50) 0 0 1 1 3 := by
  refine ⟨⟨0, 3, by decide, by decide, by decide, by decide, by decide⟩, ?_⟩
  rintro ⟨row, col, hr, _, hy, _⟩
  have h1 : row < 1 := hr
  have h2 : 1 = 0 + row := hy
  omega

/-- A collision: the pixel the glyph covers is lit; and none on a clear display. -/
theorem witness_DrawCollision : (∃ py px, SpriteLit ((State.reset.setI 0x50).setDisp (flipPixel Display.clear 0 3)) 0 0 1 py px ∧
      ((State.reset.setI 0x50).setDisp (flipPixel Display.clear 0 3)).pixel py px = true) ∧
    ¬∃ py px, SpriteLit (State.reset.setI 0x50) 0 0 1 py px ∧ (State.reset.setI 0x50).pixel py px = true := by
  refine ⟨⟨0, 3, ⟨0, 3, by decide, by decide, by decide, by decide, by decide⟩, by decide⟩, ?_⟩
  rintro ⟨py, px, _, h⟩
  exact absurd ((pixelOf_clear py px).symm.trans h) (by decide)

theorem witness_DrawTwiceRestoresDisplay : ∃ t, exec (.drw 0 1 5) (State.reset.setI 0x50) = .next t ∧
    t.reg 0 = (State.reset.setI 0x50).reg 0 ∧ t.reg 1 = (State.reset.setI 0x50).reg 1 := ⟨_, rfl, by decide, by decide⟩

theorem witness_SkipOnKey : (0xA#4).toNat = ((regs 0x1A 0 0 2 3).reg 2).toNat % 16 ∧
    ((regs 0x1A 0 0 2 3).setKey 0xA true).key 0xA = true ∧ (regs 0x1A 0 0 2 3).key 0xA = false := by decide

/-- The invariant and the execution, under both values of `KEYWAIT_ADVANCE`. -/
theorem witness_KeyWaitResolvedByKeyDown : StateInv State.reset ∧ (∃ t, exec (.ldVxK 5) State.reset = .next t) ∧
    State.reset.params.keywaitAdvance = .zero ∧
    (State.create defaultQuirks { defaultParams with keywaitAdvance := .two } true).params.keywaitAdvance = .two :=
  ⟨reset_stateInv, ⟨_, rfl⟩, rfl, rfl⟩

/-- A program one byte too long, one that just fits, the empty one, a byte of it, and the addresses around it. -/
theorem witness_LoadProgramCopiesOrFails : State.reset.memWf = true ∧
    (0 < (List.replicate 3585 (0xAB : Byte)).length ∧ 0x200 + (List.replicate 3585 (0xAB : Byte)).length > 4096) ∧
    ¬(0 < (List.replicate 3584 (0xAB : Byte)).length ∧ 0x200 + (List.replicate 3584 (0xAB : Byte)).length > 4096) ∧
    ¬(0 < ([] : List Byte).length ∧ 0x200 + ([] : List Byte).length > 4096) ∧ ([0xAA, 0xBB] : List Byte)[1]? = some 0xBB ∧
    (0x1FF < 4096 ∧ 0x1FF < 0x200) ∧ 0x202 < 4096 ∧ 0x200 + ([0xAA, 0xBB] : List Byte).length ≤ 0x202 := by
  have h1 : (List.replicate 3585 (0xAB : Byte)).length = 3585 := List.length_replicate
  have h2 : (List.replicate 3584 (0xAB : Byte)).length = 3584 := List.length_replicate
  rw [h1, h2]
  decide

/-- Keys just outside the range, at its ends, and a pending wait or none, under both values of `KEYWAIT_ADVANCE`. -/
theorem witness_KeyEvents : (-1 : Int) < 0 ∧ (16 : Int) > 15 ∧ (0 : Int) = ((0#4).toNat : Int) ∧ (15 : Int) = ((15#4).toNat : Int) ∧
    (0#4) ≠ 15#4 ∧ State.reset.waitPending = false ∧ (State.reset.armWait 5).waitPending = true ∧
    (State.reset.armWait 5).params.keywaitAdvance = .zero ∧
    ((State.create defaultQuirks { defaultParams with keywaitAdvance := .two } true).armWait 5).params.keywaitAdvance = .two := by
  decide

theorem witness_DisplayHashIsFnvFold : ∀ y x, State.reset.pixel y x = false := fun y x => pixelOf_clear y x

/-- The font in place, at the glyph of 0 and of F. -/
theorem witness_GlyphIsReadFromFont : FontInPlace State.reset ∧ FontInPlace (State.reset.setReg 2 0xFF) :=
  ⟨State.create_fontInPlace defaultQuirks defaultParams defaultRngPresent,
    State.create_fontInPlace defaultQuirks defaultParams defaultRngPresent⟩

theorem witness_SnapshotReportsState : State.reset.sp.val = 0 ∧ (stacked 16 15 0x30A 0x200).sp.val = (15 : Fin 16).val + 1 := by decide

end Sys2Proof.Tests
end

section
/-! SUPPORT. What an execution, a step and an event can do, said once: the parts of the state each instruction may write, the
two outcomes of CALL and of RET, the cases of a step, the induction over a run of events; then what each keeps. -/

namespace Sys2Proof.Safety

open Sys2Proof.Machine

/-! The stack instructions, by the room on the stack (R17, R101, R103) -/

/-- CALL with room: the return address is pushed and `pc` is nnn. -/
theorem exec_call_of_lt (nnn : Addr) {s : State} (h : s.sp.val < 16) : exec (.call nnn) s =
    .next (((s.setCell ⟨s.sp.val, h⟩ s.returnAddress).setSp ⟨s.sp.val + 1, by omega⟩).setPc nnn.toNat) := by
  simp only [exec, execCall, State.push_of_lt s.returnAddress h, finish, advance_noAdvance]

/-- CALL on a full stack is absorbed (R174). -/
theorem exec_call_of_full (nnn : Addr) {s : State} (h : s.sp.val = 16) : exec (.call nnn) s = .next s := by
  simp only [exec, execCall, State.push_of_full s.returnAddress h, finish, advance_noAdvance]

/-- RET on a non-empty stack: the top entry is dropped and `pc` is its value. -/
theorem exec_ret_of_pos (x : Nibble) {s : State} (h : 0 < s.sp.val) : exec (.ret x) s =
    .next ((s.setSp ⟨s.sp.val - 1, by omega⟩).setPc (s.stack[s.sp.val - 1]'(by omega)).toNat) := by
  simp only [exec, execRet, State.pop_of_pos h, finish, advance_noAdvance]

/-- RET on an empty stack is absorbed (R174). -/
theorem exec_ret_of_empty (x : Nibble) {s : State} (h : s.sp.val = 0) : exec (.ret x) s = .next s := by
  simp only [exec, execRet, State.pop_of_empty h, finish, advance_noAdvance]

/-- What an executed CALL was: absorbed, or a push and a jump. -/
theorem exec_call_cases {nnn : Addr} {s t : State} (h : exec (.call nnn) s = .next t) :
    t = s ∨ ∃ hsp : s.sp.val < 16,
      t = ((s.setCell ⟨s.sp.val, hsp⟩ s.returnAddress).setSp ⟨s.sp.val + 1, by omega⟩).setPc nnn.toNat := by
  rcases Nat.lt_or_ge s.sp.val 16 with hsp | hsp
  · rw [exec_call_of_lt nnn hsp] at h
    exact .inr ⟨hsp, (Host.Outcome.next.inj h).symm⟩
  · rw [exec_call_of_full nnn (by omega)] at h
    exact .inl (Host.Outcome.next.inj h).symm

/-- What an executed RET was: absorbed, or a pop and a jump. -/
theorem exec_ret_cases {x : Nibble} {s t : State} (h : exec (.ret x) s = .next t) :
    t = s ∨ ∃ hsp : 0 < s.sp.val,
      t = (s.setSp ⟨s.sp.val - 1, by omega⟩).setPc (s.stack[s.sp.val - 1]'(by omega)).toNat := by
  rcases Nat.eq_zero_or_pos s.sp.val with hsp | hsp
  · rw [exec_ret_of_empty x hsp] at h
    exact .inl (Host.Outcome.next.inj h).symm
  · rw [exec_ret_of_pos x hsp] at h
    exact .inr ⟨hsp, (Host.Outcome.next.inj h).symm⟩

/-! LD Vx, Vy, by the parameter `HAS_8XY0` (R122) -/

theorem exec_ldReg_of_has8xy0 (x y : Nibble) {s : State} (h : s.params.has8xy0 = true) :
    exec (.ldReg x y) s = finish (s.setReg x (s.reg y)) .advance2 := if_pos h

theorem exec_ldReg_of_not_has8xy0 (x y : Nibble) {s : State} (h : s.params.has8xy0 = false) :
    exec (.ldReg x y) s = finish s .advance2 := if_neg (ne_true_of_eq_false h)

/-- What an executed 8xy0 was: a copy, or the undecoded no-op. -/
theorem exec_ldReg_cases {x y : Nibble} {s t : State} (h : exec (.ldReg x y) s = .next t) :
    finish (s.setReg x (s.reg y)) .advance2 = .next t ∨ finish s .advance2 = .next t := by
  cases hp : s.params.has8xy0 with
  | true => exact .inl ((exec_ldReg_of_has8xy0 x y hp).symm.trans h)
  | false => exact .inr ((exec_ldReg_of_not_has8xy0 x y hp).symm.trans h)

/-! The parts an instruction may write -/

theorem OnlyChanges.same {ps : List Part} {s t : State} (h : OnlyChanges ps s t) {p : Part} (hp : p ∉ ps) : SamePart p s t :=
  h.2.2.2 p hp

/-- Two changes one after the other. -/
theorem OnlyChanges.append {ps qs : List Part} {s t u : State} (h : OnlyChanges ps s t) (h' : OnlyChanges qs t u) :
    OnlyChanges (ps ++ qs) s u :=
  (h.mono fun _ => List.mem_append_left qs).trans (h'.mono fun _ => List.mem_append_right ps)

/-- An effect followed by the advance of `finish` (R82). -/
theorem OnlyChanges.finish {ps : List Part} {s u t : State} {a : Advance} (h : OnlyChanges ps s u)
    (e : finish u a = .next t) : OnlyChanges (ps ++ [.pc]) s t := by
  rw [finish_eq_next e]
  exact h.append (onlyChanges_advance u a)

/-- The parts of the state an instruction may write, by its meaning in 41 to 45 of the spec. -/
def writtenParts : Instr → List Part
  | .cls _ => [.disp, .pc]
  | .ret _ | .call _ => [.stack, .pc]
  | .sys _ | .jp _ | .jpV0 _ | .seImm _ _ | .sneImm _ _ | .seReg _ _ _ | .sneReg _ _ _ | .skp _ | .sknp _ => [.pc]
  | .ldImm _ _ | .addImm _ _ | .ldReg _ _ | .orReg _ _ | .andReg _ _ | .xorReg _ _ | .addReg _ _ | .subReg _ _
  | .shrReg _ _ | .subnReg _ _ | .shlReg _ _ | .ldVxDT _ => [.regs, .pc]
  | .rnd _ _ => [.draws, .regs, .pc]
  | .drw _ _ _ => [.disp, .regs, .pc]
  | .ldVxK _ => [.wait]
  | .ldDTVx _ => [.delay, .pc]
  | .ldSTVx _ => [.sound, .pc]
  | .ldI _ | .addIVx _ | .ldFVx _ => [.index, .pc]
  | .ldBVx _ => [.mem, .pc]
  | .ldMemVx _ => [.mem, .index, .pc]
  | .ldVxMem _ => [.regs, .index, .pc]

theorem onlyChanges_exec_call {nnn : Addr} {s t : State} (h : exec (.call nnn) s = .next t) :
    OnlyChanges [.stack, .pc] s t := by
  obtain rfl | ⟨hsp, rfl⟩ := exec_call_cases h
  · exact OnlyChanges.refl _ t
  · exact ((onlyChanges_setCell s _ _).trans (onlyChanges_setSp _ _)).append (onlyChanges_setPc _ _)

theorem onlyChanges_exec_ret {x : Nibble} {s t : State} (h : exec (.ret x) s = .next t) :
    OnlyChanges [.stack, .pc] s t := by
  obtain rfl | ⟨hsp, rfl⟩ := exec_ret_cases h
  · exact OnlyChanges.refl _ t
  · exact (onlyChanges_setSp s _).append (onlyChanges_setPc _ _)

/-- LD Vx, Vy writes a register under `HAS_8XY0`, and else nothing but `pc` (R122). -/
theorem onlyChanges_exec_ldReg {x y : Nibble} {s t : State} (h : exec (.ldReg x y) s = .next t) :
    OnlyChanges [.regs, .pc] s t := by
  obtain h | h := exec_ldReg_cases h
  · exact (onlyChanges_setReg s x (s.reg y)).finish h
  · exact (OnlyChanges.refl [.regs] s).finish h

/-- The frame of every instruction: it changes no part but those `writtenParts` lists. -/
theorem onlyChanges_exec {i : Instr} {s t : State} (h : exec i s = .next t) : OnlyChanges (writtenParts i) s t := by
  cases i with
  | ret x => exact onlyChanges_exec_ret h
  | call nnn => exact onlyChanges_exec_call h
  | ldReg x y => exact onlyChanges_exec_ldReg h
  | sys nnn | seImm x kk | sneImm x kk | seReg x y n | sneReg x y n | skp x | sknp x =>
    exact (OnlyChanges.refl [] s).finish h
  | jp nnn | jpV0 nnn => exact (onlyChanges_setPc s _).finish h |>.mono (by simp [writtenParts])
  | ldImm x kk | addImm x kk | ldVxDT x => exact (onlyChanges_setReg s x _).finish h
  | orReg x y | andReg x y | xorReg x y | addReg x y | subReg x y | shrReg x y | subnReg x y | shlReg x y =>
    exact (onlyChanges_setRegFlag s x _ _).finish h
  | rnd x kk => exact ((onlyChanges_countDraw s).append (onlyChanges_setReg _ x _)).finish h
  | cls x => exact (onlyChanges_setDisp s _).finish h
  | drw x y n => exact ((onlyChanges_setDisp s _).append (onlyChanges_setReg _ vf _)).finish h
  | ldVxK x =>
    rw [finish_eq_next h, advance_noAdvance]
    exact onlyChanges_armWait s x
  | ldDTVx x => exact (onlyChanges_setDT s _).finish h
  | ldSTVx x => exact (onlyChanges_setST s _).finish h
  | ldI nnn | addIVx x | ldFVx x => exact (onlyChanges_setI s _).finish h
  | ldBVx x =>
    exact (((onlyChanges_writeByte s _ _).trans (onlyChanges_writeByte _ _ _)).trans (onlyChanges_writeByte _ _ _)).finish h
  | ldMemVx x => exact ((onlyChanges_storeRegs s _ _).append (onlyChanges_setI _ _)).finish h
  | ldVxMem x => exact ((onlyChanges_loadRegs s _ _).append (onlyChanges_setI _ _)).finish h

/-- A part that an executed instruction changed is among those it may write. -/
theorem mem_writtenParts {i : Instr} {s t : State} (h : exec i s = .next t) {p : Part} (hp : ¬ SamePart p s t) :
    p ∈ writtenParts i :=
  by_contra fun hn => hp ((onlyChanges_exec h).same hn)

/-! The writers of each part -/

theorem stack_mem_writtenParts {i : Instr} (h : Part.stack ∈ writtenParts i) :
    (∃ nnn, i = .call nnn) ∨ ∃ x, i = .ret x := by
  cases i <;> simp_all [writtenParts]

theorem disp_mem_writtenParts {i : Instr} (h : Part.disp ∈ writtenParts i) :
    (∃ x, i = .cls x) ∨ ∃ x y n, i = .drw x y n := by
  cases i <;> simp_all [writtenParts]

theorem keys_notMem_writtenParts (i : Instr) : Part.keys ∉ writtenParts i := by
  cases i <;> simp [writtenParts]

theorem index_mem_writtenParts {i : Instr} (h : Part.index ∈ writtenParts i) :
    (∃ nnn, i = .ldI nnn) ∨ (∃ x, i = .addIVx x ∨ i = .ldFVx x) ∨ ∃ x, i = .ldMemVx x ∨ i = .ldVxMem x := by
  cases i <;> simp_all [writtenParts]

theorem delay_mem_writtenParts {i : Instr} (h : Part.delay ∈ writtenParts i) : ∃ x, i = .ldDTVx x := by
  cases i <;> simp_all [writtenParts]

theorem sound_mem_writtenParts {i : Instr} (h : Part.sound ∈ writtenParts i) : ∃ x, i = .ldSTVx x := by
  cases i <;> simp_all [writtenParts]

theorem wait_mem_writtenParts {i : Instr} (h : Part.wait ∈ writtenParts i) : ∃ x, i = .ldVxK x := by
  cases i <;> simp_all [writtenParts]

theorem draws_mem_writtenParts {i : Instr} (h : Part.draws ∈ writtenParts i) : ∃ x kk, i = .rnd x kk := by
  cases i <;> simp_all [writtenParts]

/-! A step and a run of events -/

theorem step_of_pending {s : State} (h : s.waitPending = true) : step s = .next s := if_pos h

theorem step_of_fetch_ok {s : State} {i : Instr} (h : s.waitPending = false) (hf : s.fetch = .ok i) :
    step s = exec i s := by
  simp [step, State.stalled, h, hf]

theorem step_of_fetch_error {s : State} {u : Undecoded} (h : s.waitPending = false) (hf : s.fetch = .error u) :
    step s = .next (s.advance .advance2) := by
  simp [step, State.stalled, h, hf, execUndecoded, finish]

/-- What a step can be (R70, R82, R88): a stall, the instruction fetched, or the undecoded no-op. -/
theorem step_cases {s t : State} (h : step s = .next t) :
    (s.waitPending = true ∧ t = s) ∨ (∃ i, s.fetch = .ok i ∧ exec i s = .next t) ∨
      ((∃ e, s.fetch = .error e) ∧ t = s.advance .advance2) := by
  cases hw : s.waitPending with
  | true =>
    rw [step_of_pending hw] at h
    exact .inl ⟨rfl, (Host.Outcome.next.inj h).symm⟩
  | false =>
    cases hf : s.fetch with
    | ok i => exact .inr (.inl ⟨i, rfl, (step_of_fetch_ok hw hf).symm.trans h⟩)
    | error u =>
      rw [step_of_fetch_error hw hf] at h
      exact .inr (.inr ⟨⟨u, rfl⟩, (Host.Outcome.next.inj h).symm⟩)

/-- A run of events is its first event and then the rest. -/
theorem runEvents_cons_eq_next {e : Event} {es : List Event} {s t : State} (h : runEvents (e :: es) s = .next t) :
    ∃ u, applyEvent e s = .next u ∧ runEvents es u = .next t := by
  cases hu : applyEvent e s with
  | next u =>
    rw [runEvents, hu] at h
    exact ⟨u, rfl, h⟩
  | fault r => exact nomatch r
  | refused r =>
    rw [runEvents, hu] at h
    exact nomatch h

/-- A reflexive and transitive relation that every event respects holds between the ends of every run. -/
theorem runEvents_rel {R : State → State → Prop} (refl : ∀ s, R s s) (trans : ∀ s t u, R s t → R t u → R s u)
    (event : ∀ e s t, applyEvent e s = .next t → R s t) (es : List Event) {s t : State}
    (h : runEvents es s = .next t) : R s t := by
  induction es generalizing s with
  | nil => exact Host.Outcome.next.inj h ▸ refl s
  | cons e es ih =>
    obtain ⟨u, hu, ht⟩ := runEvents_cons_eq_next h
    exact trans s u t (event e s u hu) (ih ht)

/-! What no instruction and no event changes (R27) -/

/-- The straps, the parameters and the presence of a random source are those of `s`. -/
def SameConfig (s t : State) : Prop :=
  t.quirks = s.quirks ∧ t.params = s.params ∧ t.rngPresent = s.rngPresent

theorem SameConfig.refl (s : State) : SameConfig s s := ⟨rfl, rfl, rfl⟩

theorem SameConfig.trans {s t u : State} (h : SameConfig s t) (h' : SameConfig t u) : SameConfig s u :=
  ⟨h'.1.trans h.1, h'.2.1.trans h.2.1, h'.2.2.trans h.2.2⟩

theorem OnlyChanges.sameConfig {ps : List Part} {s t : State} (h : OnlyChanges ps s t) : SameConfig s t :=
  ⟨h.1, h.2.1, h.2.2.1⟩

theorem sameConfig_step {s t : State} (h : step s = .next t) : SameConfig s t := by
  obtain ⟨-, rfl⟩ | ⟨i, -, he⟩ | ⟨-, rfl⟩ := step_cases h
  · exact SameConfig.refl t
  · exact (onlyChanges_exec he).sameConfig
  · exact (onlyChanges_advance s .advance2).sameConfig

theorem onlyChanges_loadProgram (bytes : List Byte) (s : State) : OnlyChanges [.mem, .pc] s (loadProgram bytes s).2 := by
  simp only [loadProgram]
  split
  · exact OnlyChanges.refl _ s
  · exact (onlyChanges_writeBytes s _ _).append (onlyChanges_setPc _ _)

theorem onlyChanges_tickTimers (s : State) : OnlyChanges [.delay, .sound] s (tickTimers s) :=
  (onlyChanges_setDT s _).append (onlyChanges_setST _ _)

theorem onlyChanges_resolveWait (s : State) (k : Nibble) : OnlyChanges [.regs, .wait, .pc] s (s.resolveWait k) :=
  ((onlyChanges_setReg s _ _).append (onlyChanges_clearWait _)).append (onlyChanges_setPc _ _)

theorem onlyChanges_keyDown (k : Int) (s : State) : OnlyChanges [.keys, .regs, .wait, .pc] s (keyDown k s) := by
  simp only [keyDown]
  split
  · exact OnlyChanges.refl _ s
  · next n _ =>
    split
    · exact (onlyChanges_setKey s n true).append (onlyChanges_resolveWait _ n)
    · exact (onlyChanges_setKey s n true).mono (by simp)

theorem onlyChanges_keyUp (k : Int) (s : State) : OnlyChanges [.keys] s (keyUp k s) := by
  simp only [keyUp]
  split
  · exact OnlyChanges.refl _ s
  · exact onlyChanges_setKey s _ false

theorem sameConfig_applyEvent {e : Event} {s t : State} (h : applyEvent e s = .next t) : SameConfig s t := by
  cases e with
  | step => exact sameConfig_step h
  | reset => exact Host.Outcome.next.inj h ▸ ⟨rfl, rfl, rfl⟩
  | loadProgram bytes => exact Host.Outcome.next.inj h ▸ (onlyChanges_loadProgram bytes s).sameConfig
  | tickTimers => exact Host.Outcome.next.inj h ▸ (onlyChanges_tickTimers s).sameConfig
  | keyDown k => exact Host.Outcome.next.inj h ▸ (onlyChanges_keyDown k s).sameConfig
  | keyUp k => exact Host.Outcome.next.inj h ▸ (onlyChanges_keyUp k s).sameConfig

/-! The invariant (R25) under each update of the state -/

theorem stateInv_setReg {s : State} (h : StateInv s) (x : Nibble) (b : Byte) : StateInv (s.setReg x b) := h

theorem stateInv_setRegFlag {s : State} (h : StateInv s) (x : Nibble) (b f : Byte) : StateInv (s.setRegFlag x b f) := h

theorem stateInv_setI {s : State} (h : StateInv s) (w : Word) : StateInv (s.setI w) := h

theorem stateInv_setDT {s : State} (h : StateInv s) (b : Byte) : StateInv (s.setDT b) := h

theorem stateInv_setST {s : State} (h : StateInv s) (b : Byte) : StateInv (s.setST b) := h

theorem stateInv_setSp {s : State} (h : StateInv s) (n : Fin 17) : StateInv (s.setSp n) := h

theorem stateInv_setDisp {s : State} (h : StateInv s) (d : Display) : StateInv (s.setDisp d) := h

theorem stateInv_setKey {s : State} (h : StateInv s) (k : Nibble) (b : Bool) : StateInv (s.setKey k b) := h

theorem stateInv_armWait {s : State} (h : StateInv s) (x : Nibble) : StateInv (s.armWait x) := h

theorem stateInv_clearWait {s : State} (h : StateInv s) : StateInv s.clearWait := h

theorem stateInv_countDraw {s : State} (h : StateInv s) : StateInv s.countDraw := h

theorem stateInv_loadRegs {s : State} (h : StateInv s) (a n : Nat) : StateInv (s.loadRegs a n) := by
  rw [State.loadRegs_frame]
  exact h

/-- Every value written to `pc`, and the return address, lies in 0..0xFFF (R14, D3, D4). -/
theorem pcOfNat_lt (n : Nat) : (pcOfNat n).toNat < memSize := by
  rw [pcOfNat_toNat]
  exact Nat.mod_lt n (by decide)

theorem stateInv_setPc {s : State} (h : StateInv s) (n : Nat) : StateInv (s.setPc n) :=
  ⟨pcOfNat_lt n, h.2⟩

theorem stateInv_advance {s : State} (h : StateInv s) (a : Advance) : StateInv (s.advance a) := by
  cases a with
  | advance2 | advance4 => exact stateInv_setPc h _
  | noAdvance => exact h

theorem stateInv_setCell {s : State} (h : StateInv s) (k : Fin 16) {w : Word} (hw : w.toNat < memSize) :
    StateInv (s.setCell k w) := by
  obtain ⟨hpc, hstack, hmem⟩ := h
  refine ⟨hpc, fun j => ?_, hmem⟩
  rw [State.setCell_stack, Vector.getElem_set]
  split
  · exact hw
  · exact hstack j

/-- An effect that keeps the invariant, followed by the advance of `finish` (R82). -/
theorem stateInv_finish {u t : State} {a : Advance} (h : StateInv u) (e : finish u a = .next t) : StateInv t := by
  rw [finish_eq_next e]
  exact stateInv_advance h a

theorem stateInv_exec {i : Instr} {s t : State} (h : StateInv s) (e : exec i s = .next t) : StateInv t := by
  cases i with
  | ret x =>
    obtain rfl | ⟨hsp, rfl⟩ := exec_ret_cases e
    · exact h
    · exact stateInv_setPc (stateInv_setSp h _) _
  | call nnn =>
    obtain rfl | ⟨hsp, rfl⟩ := exec_call_cases e
    · exact h
    · exact stateInv_setPc (stateInv_setSp (stateInv_setCell h _ (pcOfNat_lt _)) _) _
  | ldReg x y =>
    obtain e | e := exec_ldReg_cases e
    · exact stateInv_finish (stateInv_setReg h x _) e
    · exact stateInv_finish h e
  | sys nnn | seImm x kk | sneImm x kk | seReg x y n | sneReg x y n | skp x | sknp x => exact stateInv_finish h e
  | jp nnn | jpV0 nnn => exact stateInv_finish (stateInv_setPc h _) e
  | ldImm x kk | addImm x kk | ldVxDT x => exact stateInv_finish (stateInv_setReg h x _) e
  | orReg x y | andReg x y | xorReg x y | addReg x y | subReg x y | shrReg x y | subnReg x y | shlReg x y =>
    exact stateInv_finish (stateInv_setRegFlag h x _ _) e
  | rnd x kk => exact stateInv_finish (stateInv_setReg (stateInv_countDraw h) x _) e
  | cls x => exact stateInv_finish (stateInv_setDisp h _) e
  | drw x y n => exact stateInv_finish (stateInv_setReg (stateInv_setDisp h _) vf _) e
  | ldVxK x => exact stateInv_finish (stateInv_armWait h x) e
  | ldDTVx x => exact stateInv_finish (stateInv_setDT h _) e
  | ldSTVx x => exact stateInv_finish (stateInv_setST h _) e
  | ldI nnn | addIVx x | ldFVx x => exact stateInv_finish (stateInv_setI h _) e
  | ldBVx x =>
    exact stateInv_finish (stateInv_writeByte (stateInv_writeByte (stateInv_writeByte h _ _) _ _) _ _) e
  | ldMemVx x => exact stateInv_finish (stateInv_setI (stateInv_storeRegs h _ _) _) e
  | ldVxMem x => exact stateInv_finish (stateInv_setI (stateInv_loadRegs h _ _) _) e

theorem stateInv_step {s t : State} (h : StateInv s) (e : step s = .next t) : StateInv t := by
  obtain ⟨-, rfl⟩ | ⟨i, -, he⟩ | ⟨-, rfl⟩ := step_cases e
  · exact h
  · exact stateInv_exec h he
  · exact stateInv_advance h .advance2

/-! The invariant under the other events -/

theorem stateInv_create (q : Quirks) (p : Params) (rng : Bool) : StateInv (State.create q p rng) := by
  refine ⟨?_, fun k => ?_, State.create_wf q p rng⟩
  · simp [State.create, memSize]
  · simp [State.create]

theorem stateInv_resetEvent (s : State) : StateInv (resetEvent s) :=
  stateInv_create s.quirks s.params s.rngPresent

theorem stateInv_loadProgram {s : State} (h : StateInv s) (bytes : List Byte) : StateInv (loadProgram bytes s).2 := by
  simp only [loadProgram]
  split
  · exact h
  · exact stateInv_setPc (stateInv_writeBytes h _ _) _

theorem stateInv_tickTimers {s : State} (h : StateInv s) : StateInv (tickTimers s) :=
  stateInv_setST (stateInv_setDT h _) _

theorem stateInv_resolveWait {s : State} (h : StateInv s) (k : Nibble) : StateInv (s.resolveWait k) :=
  stateInv_setPc (stateInv_clearWait (stateInv_setReg h _ _)) _

theorem stateInv_keyDown {s : State} (h : StateInv s) (k : Int) : StateInv (keyDown k s) := by
  simp only [keyDown]
  split
  · exact h
  · next n _ =>
    split
    · exact stateInv_resolveWait (stateInv_setKey h n true) n
    · exact stateInv_setKey h n true

theorem stateInv_keyUp {s : State} (h : StateInv s) (k : Int) : StateInv (keyUp k s) := by
  simp only [keyUp]
  split
  · exact h
  · exact stateInv_setKey h _ false

theorem stateInv_applyEvent {e : Event} {s t : State} (h : StateInv s) (he : applyEvent e s = .next t) : StateInv t := by
  cases e with
  | step => exact stateInv_step h he
  | reset => exact Host.Outcome.next.inj he ▸ stateInv_resetEvent s
  | loadProgram bytes => exact Host.Outcome.next.inj he ▸ stateInv_loadProgram h bytes
  | tickTimers => exact Host.Outcome.next.inj he ▸ stateInv_tickTimers h
  | keyDown k => exact Host.Outcome.next.inj he ▸ stateInv_keyDown h k
  | keyUp k => exact Host.Outcome.next.inj he ▸ stateInv_keyUp h k

/-! The registers an instruction leaves alone (R11, R12) -/

theorem reg_of_finish {u t : State} {a : Advance} (e : finish u a = .next t) (r : Nibble) : t.reg r = u.reg r := by
  rw [finish_eq_next e, State.advance_reg]

theorem reg_of_finish_setReg {u t : State} {a : Advance} {x r : Nibble} {b : Byte} (e : finish (u.setReg x b) a = .next t)
    (hr : r ≠ x) : t.reg r = u.reg r := by
  rw [reg_of_finish e, State.reg_setReg_of_ne u b hr]

theorem reg_of_finish_setRegFlag {u t : State} {a : Advance} {x r : Nibble} {b f : Byte}
    (e : finish (u.setRegFlag x b f) a = .next t) (hr : ¬ (r = x ∨ r = vf)) : t.reg r = u.reg r := by
  obtain ⟨hx, hvf⟩ := not_or.mp hr
  rw [reg_of_finish e, State.reg_setRegFlag, if_neg hvf, if_neg hx]

/-- The registers after LD Vx, [I]: the block up to x is loaded from `I` on (R145). -/
theorem reg_of_exec_ldVxMem {x : Nibble} {s t : State} (e : exec (.ldVxMem x) s = .next t) (r : Nibble) :
    t.reg r = if r.toNat < x.toNat + 1 then s.readByte (s.i.toNat + r.toNat) else s.reg r := by
  rw [reg_of_finish e, State.setI_reg, State.reg_loadRegs s _ _ x.isLt]
  rfl

theorem reg_of_exec {i : Instr} {s t : State} {r : Nibble} (e : exec i s = .next t) (hr : ¬ MayWriteReg i r) :
    t.reg r = s.reg r := by
  cases i with
  | ldImm x kk | addImm x kk | ldVxDT x => exact reg_of_finish_setReg e hr
  | rnd x kk => exact (reg_of_finish_setReg e hr).trans (State.countDraw_reg s r)
  | ldReg x y =>
    obtain e | e := exec_ldReg_cases e
    · exact reg_of_finish_setReg e hr
    · exact reg_of_finish e r
  | orReg x y | andReg x y | xorReg x y | addReg x y | subReg x y | shrReg x y | subnReg x y | shlReg x y =>
    exact reg_of_finish_setRegFlag e hr
  | drw x y n => exact (reg_of_finish_setReg e hr).trans (State.setDisp_reg s _ r)
  | ldVxMem x =>
    have hx : ¬ r.toNat < x.toNat + 1 := fun h => hr (Nat.le_of_lt_succ h)
    rw [reg_of_exec_ldVxMem e, if_neg hx]
  | cls x | ret x | sys nnn | jp nnn | call nnn | seImm x kk | sneImm x kk | seReg x y n | sneReg x y n | ldI nnn | jpV0 nnn
  | skp x | sknp x | ldVxK x | ldDTVx x | ldSTVx x | addIVx x | ldFVx x | ldBVx x | ldMemVx x =>
    exact (onlyChanges_exec e).same (p := .regs) (by simp [writtenParts]) r

/-! Without the strap the block moves keep `I` (R144, R145, R147) -/

theorem indexAfterBlock_of_not_increment {s : State} (h : s.quirks.memOpsIncrementI = false) (x : Nibble) :
    indexAfterBlock s x = s.i := by
  simp [indexAfterBlock, h]

theorem index_of_exec_block {i : Instr} {s t : State} {x : Nibble} (hi : i = .ldMemVx x ∨ i = .ldVxMem x)
    (e : exec i s = .next t) : t.i = indexAfterBlock s x := by
  obtain rfl | rfl := hi
  · rw [finish_eq_next e, State.advance_i, State.setI_i]
  · rw [finish_eq_next e, State.advance_i, State.setI_i]

/-! `ST` is carried through, never read (R19) -/

theorem finish_setST {u t : State} {a : Advance} (e : finish u a = .next t) (b : Byte) :
    finish (u.setST b) a = .next (t.setST b) := by
  rw [finish_eq_next e]
  cases a <;> rfl

theorem storeRegs_setST (s : State) (b : Byte) (a n : Nat) : (s.setST b).storeRegs a n = (s.storeRegs a n).setST b := by
  induction n with
  | zero => rfl
  | succ n ih =>
    rw [State.storeRegs, ih]
    rfl

theorem loadRegs_setST (s : State) (b : Byte) (a n : Nat) : (s.setST b).loadRegs a n = (s.loadRegs a n).setST b := by
  induction n with
  | zero => rfl
  | succ n ih =>
    rw [State.loadRegs, ih]
    rfl

theorem drawRows_setST (c : Canvas) (s : State) (b : Byte) (ox oy n : Nat) :
    c.drawRows (s.setST b) ox oy n = c.drawRows s ox oy n := by
  induction n with
  | zero => rfl
  | succ n ih =>
    simp only [Canvas.drawRows, ih]
    rfl

theorem drawSprite_setST (s : State) (b : Byte) (x y n : Nibble) : drawSprite (s.setST b) x y n = drawSprite s x y n :=
  drawRows_setST _ s b _ _ _

theorem exec_call_setST {nnn : Addr} {s t : State} (e : exec (.call nnn) s = .next t) (b : Byte) :
    exec (.call nnn) (s.setST b) = .next (t.setST b) := by
  rcases Nat.lt_or_ge s.sp.val 16 with hsp | hsp
  · rw [exec_call_of_lt nnn hsp] at e
    obtain rfl := Host.Outcome.next.inj e
    rw [exec_call_of_lt nnn (s := s.setST b) hsp]
    rfl
  · have hfull : s.sp.val = 16 := by omega
    rw [exec_call_of_full nnn hfull] at e
    obtain rfl := Host.Outcome.next.inj e
    rw [exec_call_of_full nnn (s := s.setST b) hfull]

theorem exec_ret_setST {x : Nibble} {s t : State} (e : exec (.ret x) s = .next t) (b : Byte) :
    exec (.ret x) (s.setST b) = .next (t.setST b) := by
  rcases Nat.eq_zero_or_pos s.sp.val with hsp | hsp
  · rw [exec_ret_of_empty x hsp] at e
    obtain rfl := Host.Outcome.next.inj e
    rw [exec_ret_of_empty x (s := s.setST b) hsp]
  · rw [exec_ret_of_pos x hsp] at e
    obtain rfl := Host.Outcome.next.inj e
    rw [exec_ret_of_pos x (s := s.setST b) hsp]
    rfl

/-- Every instruction but Fx18 carries `ST` through. -/
theorem exec_setST {i : Instr} {s t : State} (e : exec i s = .next t) (hi : ∀ x, i ≠ .ldSTVx x) (b : Byte) :
    exec i (s.setST b) = .next (t.setST b) := by
  cases i with
  | ldSTVx x => exact absurd rfl (hi x)
  | ret x => exact exec_ret_setST e b
  | call nnn => exact exec_call_setST e b
  | ldReg x y =>
    cases hp : s.params.has8xy0 with
    | true =>
      rw [exec_ldReg_of_has8xy0 x y hp] at e
      rw [exec_ldReg_of_has8xy0 x y (s := s.setST b) hp]
      exact finish_setST e b
    | false =>
      rw [exec_ldReg_of_not_has8xy0 x y hp] at e
      rw [exec_ldReg_of_not_has8xy0 x y (s := s.setST b) hp]
      exact finish_setST e b
  | drw x y n =>
    simp only [exec, execDrw, drawSprite_setST]
    exact finish_setST e b
  | ldMemVx x =>
    simp only [exec, execLdMemVx, storeRegs_setST]
    exact finish_setST e b
  | ldVxMem x =>
    simp only [exec, execLdVxMem, loadRegs_setST]
    exact finish_setST e b
  | cls x | sys nnn | jp nnn | seImm x kk | sneImm x kk | seReg x y n | ldImm x kk | addImm x kk | orReg x y | andReg x y
  | xorReg x y | addReg x y | subReg x y | shrReg x y | subnReg x y | shlReg x y | sneReg x y n | ldI nnn | jpV0 nnn
  | rnd x kk | skp x | sknp x | ldVxDT x | ldVxK x | ldDTVx x | addIVx x | ldFVx x | ldBVx x =>
    exact finish_setST e b

/-- Fx18 forgets the `ST` it finds (R165). -/
theorem exec_ldSTVx_setST (x : Nibble) (s : State) (b : Byte) : exec (.ldSTVx x) (s.setST b) = exec (.ldSTVx x) s := rfl

/-! The reset values (R28) -/

theorem create_atResetValues (q : Quirks) (p : Params) (rng : Bool) : AtResetValues (State.create q p rng) := by
  refine ⟨fun r => ?_, rfl, rfl, rfl, fun k => ?_, rfl, rfl, fun y x => pixelOf_clear y x, fun k => ?_, rfl, rfl,
    State.create_fontInPlace q p rng, fun a ha => ?_⟩
  · simp [State.reg, State.create]
  · simp [State.create]
  · simp [State.key, State.create]
  · have hw : wrapAddr a = a := Nat.mod_eq_of_lt (by simp only [memSize]; omega)
    rw [State.readByte_create, hw]
    exact initialByte_zero p.font (by omega)

theorem resetEvent_atResetValues (s : State) : AtResetValues (resetEvent s) :=
  create_atResetValues s.quirks s.params s.rngPresent

theorem resetEvent_fontInPlace (s : State) : FontInPlace (resetEvent s) :=
  State.create_fontInPlace s.quirks s.params s.rngPresent

/-! The glyph's address (R142) -/

theorem glyphAddr_toNat (b : Byte) : (glyphAddr b).toNat = 0x050 + 5 * (b.toNat % 16) := by
  rw [glyphAddr, BitVec.toNat_ofNat, fontBase]
  omega

end Sys2Proof.Safety
end

section
/-! SUPPORT. The statements on the state, invariants and reset (10_state.md), settled. -/

namespace Sys2Proof.Proofs

open Sys2Proof.Machine Sys2Proof.Safety

/-- Settles O10: each update an instruction makes keeps the invariant, and so does the advance. -/
theorem invariantKeptByStep : Obligations.InvariantKeptByStep :=
  fun _ _ => stateInv_step

/-- Settles O12, by the induction over a run of events. -/
theorem invariantKeptByEvents : Obligations.InvariantKeptByEvents :=
  fun es _ _ hs h => runEvents_rel (R := fun s t => StateInv s → StateInv t) (fun _ => id)
    (fun _ _ _ hst htu => htu ∘ hst) (fun _ _ _ he hs => stateInv_applyEvent hs he) es h hs

/-- Settles O11. -/
theorem invariantHoldsAtReset : Obligations.InvariantHoldsAtReset :=
  ⟨stateInv_create _ _ _, stateInv_create⟩

/-- Settles O13: `reset` leaves what `create` with the same straps and parameters leaves. -/
theorem createAndResetLeaveResetValues : Obligations.CreateAndResetLeaveResetValues :=
  ⟨fun q p rng => ⟨create_atResetValues q p rng, rfl, rfl, rfl⟩, ⟨rfl, rfl, rfl⟩,
    fun s => ⟨resetEvent_atResetValues s, rfl, rfl, rfl⟩⟩

/-- Settles O14: for an instruction by its frame, for a run by the induction over its events. -/
theorem strapsNeverChange : Obligations.StrapsNeverChange :=
  ⟨fun _ _ _ h => (onlyChanges_exec h).sameConfig,
    fun es _ _ h => runEvents_rel (R := SameConfig) SameConfig.refl (fun _ _ _ => SameConfig.trans)
      (fun _ _ _ => sameConfig_applyEvent) es h⟩

/-- Settles O16: an instruction that may write the stack is CALL or RET, and each has two outcomes. -/
theorem onlyCallAndRetMoveTheStack : Obligations.OnlyCallAndRetMoveTheStack := by
  intro i s t h
  by_cases hp : Part.stack ∈ writtenParts i
  · obtain ⟨nnn, rfl⟩ | ⟨x, rfl⟩ := stack_mem_writtenParts hp
    · obtain rfl | ⟨hsp, rfl⟩ := exec_call_cases h
      · exact ⟨fun hn => absurd rfl hn, fun hn => absurd rfl hn⟩
      · exact ⟨fun _ => ⟨hsp, nnn, rfl⟩, fun _ => .inl ⟨rfl, hsp, nnn, rfl⟩⟩
    · obtain rfl | ⟨hsp, rfl⟩ := exec_ret_cases h
      · exact ⟨fun hn => absurd rfl hn, fun hn => absurd rfl hn⟩
      · exact ⟨fun hn => absurd rfl hn, fun _ => .inr ⟨Nat.sub_add_cancel hsp, x, rfl⟩⟩
  · obtain ⟨hstack, hsp⟩ := (onlyChanges_exec h).same hp
    exact ⟨fun hn => absurd hstack hn, fun hn => absurd hsp hn⟩

/-- Settles O17, by the frame of every instruction. -/
theorem onlyClsAndDrwWriteDisplay : Obligations.OnlyClsAndDrwWriteDisplay :=
  fun i _ _ h => ⟨(onlyChanges_exec h).same (keys_notMem_writtenParts i),
    fun hd => disp_mem_writtenParts (mem_writtenParts h hd)⟩

/-- Settles O18: an instruction keeps every register it may not write. -/
theorem registersWrittenOnlyAsListed : Obligations.RegistersWrittenOnlyAsListed :=
  fun _ _ _ _ h hr => by_contra fun hn => hr (reg_of_exec h hn)

/-- Settles O19, by the frame of every instruction; the block moves change `I` under the strap alone. -/
theorem indexTimersWaitWrittenOnlyAsListed : Obligations.IndexTimersWaitWrittenOnlyAsListed := by
  intro i s t h
  refine ⟨fun hi => ?_, fun hd => delay_mem_writtenParts (mem_writtenParts h hd),
    fun hs => sound_mem_writtenParts (mem_writtenParts h hs), fun hw => ?_,
    fun hr => draws_mem_writtenParts (mem_writtenParts h hr)⟩
  · obtain hldI | haddI | ⟨x, hx⟩ := index_mem_writtenParts (mem_writtenParts h hi)
    · exact .inl hldI
    · exact .inr (.inl haddI)
    · refine .inr (.inr ⟨?_, x, hx⟩)
      by_contra hq
      exact hi ((index_of_exec_block hx h).trans (indexAfterBlock_of_not_increment (Bool.eq_false_of_not_eq_true hq) x))
  · exact wait_mem_writtenParts (mem_writtenParts h (not_and_or.mpr hw))

/-- Settles O20: Fx18 forgets `ST`, and every other instruction carries it through. -/
theorem soundTimerIsNeverRead : Obligations.SoundTimerIsNeverRead := by
  intro i s t b h
  by_cases hi : ∃ x, i = .ldSTVx x
  · obtain ⟨x, rfl⟩ := hi
    exact ⟨t.st, (exec_ldSTVx_setST x s b).trans h, fun hne => absurd rfl (hne x)⟩
  · exact ⟨b, exec_setST h (fun x hx => hi ⟨x, hx⟩) b, fun _ => rfl⟩

/-- Settles O58: Fx29 leaves the glyph's address in `I`, and F465 reads the five bytes from there. -/
theorem glyphIsReadFromFont : Obligations.GlyphIsReadFromFont := by
  refine ⟨State.create_fontInPlace, resetEvent_fontInPlace, fun x s hfont => ⟨_, _, rfl, rfl, fun r k hr hk => ?_⟩⟩
  have haddr : (glyphAddr (s.reg x)).toNat + r.toNat = 0x050 + k.val := by
    rw [glyphAddr_toNat]
    omega
  have hblock : r.toNat < (4#4).toNat + 1 := hr
  rw [reg_of_exec_ldVxMem rfl, if_pos hblock, State.advance_readByte, State.setI_readByte, State.advance_i, State.setI_i,
    haddr]
  exact hfont k

end Sys2Proof.Proofs
end


section
/-! SUPPORT. The writers of memory, and what a block store leaves in memory (43_index_memory.md). -/

namespace Sys2Proof.Safety

open Sys2Proof.Machine

theorem memory_mem_writtenParts {i : Instr} (h : Part.mem ∈ writtenParts i) : ∃ x, i = .ldBVx x ∨ i = .ldMemVx x := by
  cases i with
  | ldBVx x => exact ⟨x, .inl rfl⟩
  | ldMemVx x => exact ⟨x, .inr rfl⟩
  | _ => simp [writtenParts] at h

/-- After LD [I], Vx every address that wraps to the one of `V[r]`'s byte, r at most x, reads as `V[r]` (R44, R144). -/
theorem readByte_of_exec_ldMemVx {x r : Nibble} {s t : State} (hwf : s.memWf = true) (e : exec (.ldMemVx x) s = .next t)
    (hr : r.toNat ≤ x.toNat) {c : Nat} (hc : wrapAddr c = wrapAddr (s.i.toNat + r.toNat)) : t.readByte c = s.reg r := by
  obtain ⟨hstored, -⟩ := State.readByte_storeRegs hwf (indexAddr s 0) (x.toNat + 1) x.isLt c
  rw [finish_eq_next e, State.advance_readByte, State.setI_readByte, hstored r.toNat (Nat.lt_succ_of_le hr) hc,
    BitVec.ofNat_toNat, BitVec.setWidth_eq]

end Sys2Proof.Safety
end

section
/-! SUPPORT. The statements on memory (20_memory.md), settled. -/

namespace Sys2Proof.Proofs

open Sys2Proof.Machine Sys2Proof.Safety

/-- Settles O15, by the frame of every instruction. -/
theorem onlyStoresWriteMemory : Obligations.OnlyStoresWriteMemory :=
  fun _ _ _ a h ha => memory_mem_writtenParts (mem_writtenParts h fun hsame => ha (hsame a))

/-- Settles O43: `pc` and `pc + 1` wrap to the addresses where the block store put `V[k]` and `V[k + 1]`. -/
theorem storedWordIsFetchedNext : Obligations.StoredWordIsFetchedNext := by
  intro x k s t w hwf h hk hpc hw
  have hsucc : (k + 1#4).toNat = k.toNat + 1 := by bv_omega
  have hhigh : t.readByte t.pc.toNat = s.reg k := readByte_of_exec_ldMemVx hwf h (Nat.le_of_lt hk) hpc
  have hlow : t.readByte (t.pc.toNat + 1) = s.reg (k + 1#4) := by
    refine readByte_of_exec_ldMemVx hwf h (by omega) ?_
    simp only [wrapAddr, memSize, hsucc]
    omega
  rw [Fetches, hhigh, hlow]
  exact hw

end Sys2Proof.Proofs
end

section
/-! SUPPORT. What the decoder answers, said once for every word: the instruction whose word it is, or the name of the space the
word lies in (30_encoding.md); and the fields of a word as numbers. -/

namespace Sys2Proof

/-! The dispatch, by the high nibble (R64) -/

theorem decodeWord_of_family0 {w : Word} (h : fieldHi w = 0x0#4) : decodeWord w = .ok (decodeFamily0 w) := if_pos h

theorem decodeWord_of_family8 {w : Word} (h : fieldHi w = 0x8#4) : decodeWord w = decodeFamily8 w := by
  simp [decodeWord, h]

theorem decodeWord_of_familyE {w : Word} (h : fieldHi w = 0xE#4) : decodeWord w = decodeFamilyE w := by
  simp [decodeWord, h]

theorem decodeWord_of_familyF {w : Word} (h : fieldHi w = 0xF#4) : decodeWord w = decodeFamilyF w := by
  simp [decodeWord, h]

/-- A word of family 0 whose low byte is neither CLS's nor RET's is SYS (R65). -/
theorem decodeWord_sys {w : Word} (hhi : fieldHi w = 0x0#4) (hkk : fieldKK w ≠ 0xE0#8 ∧ fieldKK w ≠ 0xEE#8) :
    decodeWord w = .ok (.sys (fieldNNN w)) := by
  rw [decodeWord_of_family0 hhi, decodeFamily0, if_neg hkk.1, if_neg hkk.2]

theorem wellFormed_sys_iff (nnn : Addr) :
    (Instr.sys nnn).WellFormed = true ↔ nnn.extractLsb' 0 8 ≠ 0xE0#8 ∧ nnn.extractLsb' 0 8 ≠ 0xEE#8 := by
  simp [Instr.WellFormed]

/-- The decoder reads an instruction's fields back from its word: the family from `hi`, the row from the sub-opcode. -/
theorem decodeWord_encode {i : Instr} (h : i.WellFormed = true) : decodeWord (encode i) = .ok i := by
  cases i with
  | sys nnn =>
    have hkk : fieldKK (formatA 0x0 nnn) ≠ 0xE0#8 ∧ fieldKK (formatA 0x0 nnn) ≠ 0xEE#8 := by
      rw [fieldKK_formatA]
      exact (wellFormed_sys_iff nnn).mp h
    exact (decodeWord_sys (fieldHi_formatA _ _) hkk).trans (by rw [fieldNNN_formatA])
  | cls x | ret x => exact (decodeWord_of_family0 (fieldHi_formatI _ _ _)).trans (by simp [decodeFamily0])
  | jp nnn | call nnn | ldI nnn | jpV0 nnn => simp [encode, decodeWord]
  | seImm x kk | sneImm x kk | ldImm x kk | addImm x kk | rnd x kk => simp [encode, decodeWord]
  | seReg x y n | sneReg x y n | drw x y n => simp [encode, decodeWord]
  | ldReg x y | orReg x y | andReg x y | xorReg x y | addReg x y | subReg x y | shrReg x y | subnReg x y | shlReg x y =>
    exact (decodeWord_of_family8 (fieldHi_formatR _ _ _ _)).trans (by simp [decodeFamily8])
  | skp x | sknp x => exact (decodeWord_of_familyE (fieldHi_formatI _ _ _)).trans (by simp [decodeFamilyE])
  | ldVxDT x | ldVxK x | ldDTVx x | ldSTVx x | addIVx x | ldFVx x | ldBVx x | ldMemVx x | ldVxMem x =>
    exact (decodeWord_of_familyF (fieldHi_formatI _ _ _)).trans (by simp [decodeFamilyF])

/-! A word rebuilt from fields whose values are known -/

theorem formatA_of_fields {w : Word} {hi : Nibble} (hhi : fieldHi w = hi) : formatA hi (fieldNNN w) = w :=
  hhi ▸ formatA_fields w

theorem formatI_of_fields {w : Word} {hi : Nibble} {kk : Byte} (hhi : fieldHi w = hi) (hkk : fieldKK w = kk) :
    formatI hi (fieldX w) kk = w := by
  rw [← hhi, ← hkk, formatI_fields]

theorem formatR_of_fields {w : Word} {hi n : Nibble} (hhi : fieldHi w = hi) (hn : fieldN w = n) :
    formatR hi (fieldX w) (fieldY w) n = w := by
  rw [← hhi, ← hn, formatR_fields]

/-! What the decoder answers -/

/-- The words a name of the decoder stands for: those of its family whose sub-opcode is no row's (R66 to R68, R71). -/
def Undecoded.Covers : Undecoded → Word → Prop
  | .family8, w => fieldHi w = 0x8#4 ∧ fieldN w ∉ [0x0#4, 0x1#4, 0x2#4, 0x3#4, 0x4#4, 0x5#4, 0x6#4, 0x7#4, 0xE#4]
  | .familyE, w => fieldHi w = 0xE#4 ∧ fieldKK w ∉ [0x9E#8, 0xA1#8]
  | .familyF, w => fieldHi w = 0xF#4 ∧
      fieldKK w ∉ [0x07#8, 0x0A#8, 0x15#8, 0x18#8, 0x1E#8, 0x29#8, 0x33#8, 0x55#8, 0x65#8]

/-- An answer that is right for the word: the well-formed instruction whose word it is, or the name that covers it. -/
def RightAnswer (w : Word) : Except Undecoded Instr → Prop
  | .ok i => i.WellFormed = true ∧ encode i = w
  | .error u => u.Covers w

theorem decodeFamily0_right {w : Word} (h : fieldHi w = 0x0#4) : RightAnswer w (.ok (decodeFamily0 w)) := by
  unfold decodeFamily0
  split_ifs with hcls hret
  · exact ⟨rfl, formatI_of_fields h hcls⟩
  · exact ⟨rfl, formatI_of_fields h hret⟩
  · have hw : formatA 0x0#4 (fieldNNN w) = w := formatA_of_fields h
    rw [← hw, fieldKK_formatA] at hcls hret
    exact ⟨(wellFormed_sys_iff _).mpr ⟨hcls, hret⟩, hw⟩

theorem decodeFamily8_right {w : Word} (h : fieldHi w = 0x8#4) : RightAnswer w (decodeFamily8 w) := by
  unfold decodeFamily8
  iterate 9 refine iteInduction (fun hn => ⟨rfl, formatR_of_fields h hn⟩) fun _ => ?_
  exact ⟨h, by simp [*]⟩

theorem decodeFamilyE_right {w : Word} (h : fieldHi w = 0xE#4) : RightAnswer w (decodeFamilyE w) := by
  unfold decodeFamilyE
  iterate 2 refine iteInduction (fun hkk => ⟨rfl, formatI_of_fields h hkk⟩) fun _ => ?_
  exact ⟨h, by simp [*]⟩

theorem decodeFamilyF_right {w : Word} (h : fieldHi w = 0xF#4) : RightAnswer w (decodeFamilyF w) := by
  unfold decodeFamilyF
  iterate 9 refine iteInduction (fun hkk => ⟨rfl, formatI_of_fields h hkk⟩) fun _ => ?_
  exact ⟨h, by simp [*]⟩

/-- The decoder's answer is right for every word (R64, R71, R74). -/
theorem decodeWord_right (w : Word) : RightAnswer w (decodeWord w) := by
  unfold decodeWord
  refine iteInduction decodeFamily0_right fun h0 => ?_
  refine iteInduction (fun h => ⟨rfl, formatA_of_fields h⟩) fun h1 => ?_
  refine iteInduction (fun h => ⟨rfl, formatA_of_fields h⟩) fun h2 => ?_
  refine iteInduction (fun h => ⟨rfl, formatI_of_fields h rfl⟩) fun h3 => ?_
  refine iteInduction (fun h => ⟨rfl, formatI_of_fields h rfl⟩) fun h4 => ?_
  refine iteInduction (fun h => ⟨rfl, formatR_of_fields h rfl⟩) fun h5 => ?_
  refine iteInduction (fun h => ⟨rfl, formatI_of_fields h rfl⟩) fun h6 => ?_
  refine iteInduction (fun h => ⟨rfl, formatI_of_fields h rfl⟩) fun h7 => ?_
  refine iteInduction decodeFamily8_right fun h8 => ?_
  refine iteInduction (fun h => ⟨rfl, formatR_of_fields h rfl⟩) fun h9 => ?_
  refine iteInduction (fun h => ⟨rfl, formatA_of_fields h⟩) fun hA => ?_
  refine iteInduction (fun h => ⟨rfl, formatA_of_fields h⟩) fun hB => ?_
  refine iteInduction (fun h => ⟨rfl, formatI_of_fields h rfl⟩) fun hC => ?_
  refine iteInduction (fun h => ⟨rfl, formatR_of_fields h rfl⟩) fun hD => ?_
  refine iteInduction decodeFamilyE_right fun hE => ?_
  have hF : fieldHi w = 0xF#4 := by bv_omega
  exact decodeFamilyF_right hF

theorem wellFormed_and_encode_of_decodeWord {w : Word} {i : Instr} (h : decodeWord w = .ok i) :
    i.WellFormed = true ∧ encode i = w := by
  have hright := decodeWord_right w
  rwa [h] at hright

/-- A name is the answer on exactly the words it covers. -/
theorem decodeWord_eq_error_iff (w : Word) (u : Undecoded) : decodeWord w = .error u ↔ u.Covers w := by
  constructor
  · intro h
    have hright := decodeWord_right w
    rwa [h] at hright
  · intro h
    cases u with
    | family8 =>
      obtain ⟨hhi, hn⟩ := h
      rw [decodeWord_of_family8 hhi]
      simp_all [decodeFamily8]
    | familyE =>
      obtain ⟨hhi, hkk⟩ := h
      rw [decodeWord_of_familyE hhi]
      simp_all [decodeFamilyE]
    | familyF =>
      obtain ⟨hhi, hkk⟩ := h
      rw [decodeWord_of_familyF hhi]
      simp_all [decodeFamilyF]

/-- SYS is the answer on exactly the words of family 0 that are not CLS or RET (R65). -/
theorem exists_decodeWord_sys_iff (w : Word) :
    (∃ nnn, decodeWord w = .ok (.sys nnn)) ↔ fieldHi w = 0x0#4 ∧ fieldKK w ∉ [0xE0#8, 0xEE#8] := by
  constructor
  · rintro ⟨nnn, h⟩
    obtain ⟨hwf, rfl⟩ := wellFormed_and_encode_of_decodeWord h
    exact ⟨fieldHi_formatA _ _, by simpa [encode] using (wellFormed_sys_iff nnn).mp hwf⟩
  · rintro ⟨hhi, hkk⟩
    exact ⟨_, decodeWord_sys hhi (by simpa using hkk)⟩

/-! The fields of a word as numbers (R61) -/

theorem fieldHi_toNat (w : Word) : (fieldHi w).toNat = w.toNat / 4096 := by
  rw [fieldHi, BitVec.extractLsb'_toNat, Nat.shiftRight_eq_div_pow]
  omega

theorem fieldN_toNat (w : Word) : (fieldN w).toNat = w.toNat % 16 := by simp [fieldN]

theorem fieldKK_toNat (w : Word) : (fieldKK w).toNat = w.toNat % 256 := by simp [fieldKK]

theorem fieldHi_eq_iff (w : Word) (hi : Nibble) : fieldHi w = hi ↔ w.toNat / 4096 = hi.toNat := by
  rw [← BitVec.toNat_inj, fieldHi_toNat]

theorem fieldKK_notMem_iff (w : Word) (codes : List Byte) :
    fieldKK w ∉ codes ↔ w.toNat % 256 ∉ codes.map BitVec.toNat := by
  rw [← fieldKK_toNat, List.mem_map_of_injective fun _ _ => BitVec.eq_of_toNat_eq]

/-- The nibbles that are no row of family 8, listed (R71). -/
theorem nibble_notMem_family8_iff : ∀ n : Nibble,
    n ∉ [0x0#4, 0x1#4, 0x2#4, 0x3#4, 0x4#4, 0x5#4, 0x6#4, 0x7#4, 0xE#4] ↔
      n.toNat ∈ [0x8, 0x9, 0xA, 0xB, 0xC, 0xD, 0xF] := by decide

end Sys2Proof
end

section
/-! SUPPORT. The word at `pc` and the step that fetches it (R41, R82). -/

namespace Sys2Proof.Safety

open Sys2Proof.Machine

theorem fetch_of_fetches {s : State} {w : Word} (h : Fetches s w) : s.fetch = decodeWord w := by
  have hw : wordOfBytes (s.readByte s.pc.toNat) (s.readByte (s.pc.toNat + 1)) = w :=
    BitVec.eq_of_toNat_eq ((wordOfBytes_toNat _ _).trans h.symm)
  rw [State.fetch, decode, hw]

end Sys2Proof.Safety
end

section
/-! SUPPORT. The statements on encoding (30_encoding.md), settled. -/

namespace Sys2Proof.Proofs

open Sys2Proof.Machine Sys2Proof.Safety

/-- Settles O2: the decoder reads each field back from the word's format. -/
theorem decodeEncodeReturnsInstruction : Obligations.DecodeEncodeReturnsInstruction :=
  fun _ => decodeWord_encode

/-- Settles O3: the decoder's answer is right for every word. -/
theorem encodeDecodeReturnsWord : Obligations.EncodeDecodeReturnsWord :=
  fun _ _ => wellFormed_and_encode_of_decodeWord

/-- Settles O4: the words each name covers, and the words of SYS, with their fields read as numbers. -/
theorem undecodedWordsAreThoseOfTheTable : Obligations.UndecodedWordsAreThoseOfTheTable := by
  intro w
  refine ⟨?_, ?_, ?_, ?_⟩
  · rw [decodeWord_eq_error_iff, ← fieldN_toNat, ← nibble_notMem_family8_iff]
    exact and_congr_left' (fieldHi_eq_iff w _)
  · rw [decodeWord_eq_error_iff]
    exact and_congr (fieldHi_eq_iff w _) (fieldKK_notMem_iff w _)
  · rw [decodeWord_eq_error_iff]
    exact and_congr (fieldHi_eq_iff w _) (fieldKK_notMem_iff w _)
  · rw [exists_decodeWord_sys_iff]
    exact and_congr (fieldHi_eq_iff w _) (fieldKK_notMem_iff w _)

/-- Settles O7: the undecoded no-op and SYS both end in the advance by 2 alone. -/
theorem undecodedWordOnlyAdvances : Obligations.UndecodedWordOnlyAdvances := by
  intro s w hwait hfetches hw
  have hfetch : s.fetch = decodeWord w := fetch_of_fetches hfetches
  have hstep : step s = .next (s.advance .advance2) := by
    obtain ⟨u, hu⟩ | ⟨nnn, hsys⟩ := hw
    · exact step_of_fetch_error hwait (hfetch.trans hu)
    · exact step_of_fetch_ok hwait (hfetch.trans hsys)
  exact ⟨_, hstep, advanced_advance2 s, onlyChanges_advance s _⟩

/-- Settles O1: the spec's words are those decoded beside the decoder, and four more. -/
theorem specWordsDecode : Obligations.SpecWordsDecode :=
  ⟨decodeWord_cls_word, decodeWord_ret_word, by decide, decodeWord_jp_word, decodeWord_seImm_word, decodeWord_seReg_word,
    decodeWord_addReg_word, decodeWord_shlReg_word, decodeWord_drw_word, decodeWord_skp_word, decodeWord_ldMemVx_word,
    by decide, by decide, by decide⟩

end Sys2Proof.Proofs
end

section
/-! SUPPORT. The word at `pc` by the way the host places it, and what each event of the environment and each output does, said
once (40_cycle_and_host_ops.md rules R81 to R94). -/

namespace Sys2Proof.Safety

open Sys2Proof.Machine

/-! The placed word (R41, R82) -/

theorem withFetchWord_toNat (s : State) (w : Word) :
    s.withFetchWord 16 w.toNat = s.clearWait.placeWord s.pc.toNat w := by
  rw [State.withFetchWord, Nat.mod_eq_of_lt w.isLt, BitVec.ofNat_toNat, BitVec.setWidth_eq]

theorem waitPending_withFetchWord (s : State) (nbits w : Nat) : (s.withFetchWord nbits w).waitPending = false := rfl

theorem fetch_eq_decodeWord (s : State) : s.fetch = decodeWord (s.fetchWordAt s.pc.toNat) := rfl

/-- The word placed is the word fetched next. -/
theorem fetch_withFetchWord {s : State} (h : s.memWf = true) (w : Word) :
    (s.withFetchWord 16 w.toNat).fetch = decodeWord w := by
  rw [withFetchWord_toNat, fetch_eq_decodeWord]
  exact congrArg decodeWord (State.fetchWordAt_placeWord (s := s.clearWait) h s.pc.toNat w)

/-! `load_program` (R83) -/

theorem loadProgram_of_tooLarge {bytes : List Byte} (h : 0 < bytes.length ∧ 0x200 + bytes.length > 4096) (s : State) :
    loadProgram bytes s = (.failure, s) :=
  if_pos (decide_eq_true h)

theorem loadProgram_of_fits {bytes : List Byte} (h : ¬ (0 < bytes.length ∧ 0x200 + bytes.length > 4096)) (s : State) :
    loadProgram bytes s = (.success, (s.writeBytes progBase bytes).setPc progBase) :=
  if_neg (ne_true_of_eq_false (decide_eq_false h))

/-! `tick_timers` (R84) -/

theorem countDown_toNat (b : Byte) : (countDown b).toNat = b.toNat - 1 := by
  unfold countDown
  split
  · next hzero => rw [hzero]; rfl
  · bv_omega

theorem dt_tickTimers (s : State) : (tickTimers s).dt.toNat = s.dt.toNat - 1 := countDown_toNat s.dt

theorem st_tickTimers (s : State) : (tickTimers s).st.toNat = s.st.toNat - 1 := countDown_toNat s.st

/-! `key_down` and `key_up`, by the key number (R85, R86, R173) -/

theorem keyNumber_of_outside {k : Int} (h : k < 0 ∨ k > 15) : keyNumber k = none := if_neg (by omega)

theorem keyNumber_toNat (n : Nibble) : keyNumber n.toNat = some n := by
  have hn : (0 : Int) ≤ n.toNat ∧ (n.toNat : Int) ≤ 15 := by omega
  rw [keyNumber, if_pos hn, Int.toNat_natCast, BitVec.ofNat_toNat, BitVec.setWidth_eq]

theorem exists_nibble_of_inRange {k : Int} (h : 0 ≤ k ∧ k ≤ 15) : ∃ n : Nibble, k = n.toNat := by
  refine ⟨BitVec.ofNat 4 k.toNat, ?_⟩
  rw [BitVec.toNat_ofNat]
  omega

theorem keyDown_of_outside {k : Int} (h : k < 0 ∨ k > 15) (s : State) : keyDown k s = s := by
  rw [keyDown, keyNumber_of_outside h]

theorem keyUp_of_outside {k : Int} (h : k < 0 ∨ k > 15) (s : State) : keyUp k s = s := by
  rw [keyUp, keyNumber_of_outside h]

theorem keyUp_toNat (n : Nibble) (s : State) : keyUp n.toNat s = s.setKey n false := by
  rw [keyUp, keyNumber_toNat]

theorem keyDown_toNat_of_pending {s : State} (h : s.waitPending = true) (n : Nibble) :
    keyDown n.toNat s = (s.setKey n true).resolveWait n := by
  simp only [keyDown, keyNumber_toNat, h, if_true]

theorem keyDown_toNat_of_not_pending {s : State} (h : s.waitPending = false) (n : Nibble) :
    keyDown n.toNat s = s.setKey n true := by
  simp [keyDown, keyNumber_toNat, h]

@[simp] theorem waitPending_resolveWait (s : State) (k : Nibble) : (s.resolveWait k).waitPending = false := rfl

@[simp] theorem key_resolveWait (s : State) (k j : Nibble) : (s.resolveWait k).key j = s.key j := rfl

/-- The target register, and it alone, takes the key's number (R85). -/
theorem writesReg_resolveWait (s : State) (k : Nibble) : WritesReg s.waitTarget k.toNat s (s.resolveWait k) :=
  writesReg_setReg s.waitTarget (by rw [BitVec.toNat_setWidth]; omega)

theorem advanced_resolveWait (s : State) (k : Nibble) :
    Advanced (keywaitAmount s.params.keywaitAdvance) s (s.resolveWait k) :=
  pcOfNat_toNat _

/-- A valid key sets its latch and no other, pending wait or not (R85). -/
theorem key_keyDown_toNat (n j : Nibble) (s : State) : (keyDown n.toNat s).key j = if j = n then true else s.key j := by
  cases hw : s.waitPending with
  | true => rw [keyDown_toNat_of_pending hw, key_resolveWait, State.key_setKey]
  | false => rw [keyDown_toNat_of_not_pending hw, State.key_setKey]

/-! The events that end a wait (R88) -/

theorem OnlyChanges.waitPending {ps : List Part} {s t : State} (h : OnlyChanges ps s t) (hp : Part.wait ∉ ps) :
    t.waitPending = s.waitPending :=
  (h.same hp).1

/-- `key_down` ends a pending wait exactly when the key is valid. -/
theorem waitPending_keyDown_iff {s : State} (h : s.waitPending = true) (k : Int) :
    (keyDown k s).waitPending = false ↔ 0 ≤ k ∧ k ≤ 15 := by
  constructor
  · intro hend
    by_contra hk
    rw [keyDown_of_outside (by omega), h] at hend
    exact Bool.noConfusion hend
  · intro hk
    obtain ⟨n, rfl⟩ := exists_nibble_of_inRange hk
    rw [keyDown_toNat_of_pending h, waitPending_resolveWait]

/-! The framebuffer and the display hash (R92, R94) -/

/-- The pixel at index `64 * y + x` in row-major order. -/
def pixelAt (s : State) (idx : Nat) : Bool := s.pixel (Fin.ofNat 32 (idx / 64)) (Fin.ofNat 64 (idx % 64))

theorem pixelAt_rowMajor (s : State) (y : Fin 32) (x : Fin 64) : pixelAt s (64 * y.val + x.val) = s.pixel y x := by
  have hy : Fin.ofNat 32 ((64 * y.val + x.val) / 64) = y := Fin.ext (by rw [Fin.val_ofNat]; omega)
  have hx : Fin.ofNat 64 ((64 * y.val + x.val) % 64) = x := Fin.ext (by rw [Fin.val_ofNat]; omega)
  rw [pixelAt, hy, hx]

theorem toList_map_eq_ofFn {α β : Type} {n : Nat} (v : Vector α n) (f : α → β) :
    v.toList.map f = List.ofFn fun i : Fin n => f v[i.val] :=
  List.ext_getElem (by simp) (by simp)

/-- The framebuffer lists the pixels by their row-major index (R92). -/
theorem framebuffer_eq_map_range (s : State) :
    framebuffer s = (List.range 2048).map fun idx => pixelByte (pixelAt s idx) := by
  rw [framebuffer, toList_map_eq_ofFn, ← List.map_coe_finRange_eq_range, List.map_map, ← List.ofFn_eq_map,
    List.ofFn_mul' (m := 64) (n := 32)]
  refine congrArg List.flatten (congrArg List.ofFn (funext fun y => ?_))
  rw [toList_map_eq_ofFn]
  exact congrArg List.ofFn (funext fun x => congrArg pixelByte (pixelAt_rowMajor s y x).symm)

theorem pixelByte_toNat (b : Bool) : (pixelByte b).toNat = if b then 1 else 0 := by cases b <;> rfl

/-- One byte of the hash, as a number (R94). -/
theorem fnvByte_toNat (h : BitVec 32) (b : Byte) :
    (fnvByte h b).toNat = (h.toNat ^^^ b.toNat) * 0x01000193 % 2 ^ 32 := by
  have hb : b.toNat % 2 ^ 32 = b.toNat := Nat.mod_eq_of_lt (by omega)
  rw [fnvByte, BitVec.toNat_mul, BitVec.toNat_xor, BitVec.toNat_setWidth, hb]
  rfl

/-- The hash of zeros only multiplies: XOR with 0 changes nothing (R94). -/
theorem fnvHash_zeros_toNat (n : Nat) :
    (fnvHash (List.replicate n 0#8)).toNat = 0x811C9DC5 * 0x01000193 ^ n % 2 ^ 32 := by
  induction n with
  | zero => rfl
  | succ n ih =>
    rw [fnvHash] at ih
    rw [fnvHash, List.replicate_succ', List.foldl_concat, fnvByte_toNat, ih]
    simp [Nat.mod_mul_mod, pow_succ, mul_assoc]

/-- The prime's power for the 2048 zeros of a clear display, the exponent taken as 256 * 8 to keep the numbers small. -/
theorem fnvPrime_pow_2048 : 0x01000193 ^ 2048 % 2 ^ 32 = 0x247D2001 := by
  have h256 : 0x01000193 ^ 256 % 2 ^ 32 = 0x50D7A401 := by norm_num
  calc 0x01000193 ^ 2048 % 2 ^ 32 = (0x01000193 ^ 256 % 2 ^ 32) ^ 8 % 2 ^ 32 := by rw [← Nat.pow_mod, ← pow_mul]
    _ = 0x247D2001 := by rw [h256]; norm_num

/-- The hash is the fold of R94 over the pixels in row-major order, on numbers. -/
theorem displayHash_toNat (s : State) : (displayHash s).toNat = (List.range 2048).foldl
    (fun h idx => (h ^^^ (if pixelAt s idx then 1 else 0)) * 0x01000193 % 2 ^ 32) 0x811C9DC5 := by
  rw [displayHash, fnvHash, framebuffer_eq_map_range, List.foldl_map]
  refine (List.foldl_hom BitVec.toNat fun h idx => ?_).symm
  rw [fnvByte_toNat, pixelByte_toNat]

/-- The hash of a display with every pixel 0 (R94). -/
theorem displayHash_of_blank {s : State} (h : ∀ y x, s.pixel y x = false) : displayHash s = 0xD2063DC5#32 := by
  have hzeros : framebuffer s = List.replicate 2048 0#8 := by
    have hzero (idx : Nat) : pixelByte (pixelAt s idx) = 0#8 := congrArg pixelByte (h _ _)
    simp only [framebuffer_eq_map_range, hzero, List.map_const', List.length_range]
  apply BitVec.eq_of_toNat_eq
  rw [displayHash, hzeros, fnvHash_zeros_toNat, Nat.mul_mod, fnvPrime_pow_2048]
  norm_num

/-! The top of the stack (R93) -/

theorem stackTop_of_empty {s : State} (h : s.sp.val = 0) : stackTop s = 0#16 := by
  rw [stackTop, State.pop_of_empty h]

theorem stackTop_of_pos {s : State} (h : 0 < s.sp.val) : stackTop s = s.stack[s.sp.val - 1]'(by omega) := by
  rw [stackTop, State.pop_of_pos h]

end Sys2Proof.Safety
end

section
/-! SUPPORT. The statements on the cycle, the host's events and the outputs (40_cycle_and_host_ops.md), settled. -/

namespace Sys2Proof.Proofs

open Sys2Proof.Machine Sys2Proof.Safety

/-- Settles O5: the bytes at `pc` are the word fetched. -/
theorem stepRunsDecodedInstruction : Obligations.StepRunsDecodedInstruction :=
  fun _ _ _ hwait hfetches hw => step_of_fetch_ok hwait ((fetch_of_fetches hfetches).trans hw)

/-- Settles O6: the placing clears the wait, and the word placed is the word fetched. -/
theorem stepRunsPlacedWord : Obligations.StepRunsPlacedWord :=
  fun s w _ hwf hw => step_of_fetch_ok (waitPending_withFetchWord s 16 w.toNat) ((fetch_withFetchWord hwf w).trans hw)

/-- Settles O8: `reset` clears the wait, a valid `key_down` resolves it, and every other event leaves it. -/
theorem pendingWaitStallsUntilKeyOrReset : Obligations.PendingWaitStallsUntilKeyOrReset := by
  intro s hs
  refine ⟨step_of_pending hs, fun e => ?_⟩
  cases e with
  | reset => exact ⟨_, rfl, iff_of_true rfl (.inl rfl)⟩
  | step => exact ⟨s, step_of_pending hs, by simp [hs]⟩
  | loadProgram bytes =>
    have hkept := (onlyChanges_loadProgram bytes s).waitPending (by simp)
    exact ⟨_, rfl, by simp [hkept, hs]⟩
  | tickTimers =>
    have hkept := (onlyChanges_tickTimers s).waitPending (by simp)
    exact ⟨_, rfl, by simp [hkept, hs]⟩
  | keyUp k =>
    have hkept := (onlyChanges_keyUp k s).waitPending (by simp)
    exact ⟨_, rfl, by simp [hkept, hs]⟩
  | keyDown k =>
    refine ⟨_, rfl, (waitPending_keyDown_iff hs k).trans ⟨fun hk => .inr ⟨k, hk.1, hk.2, rfl⟩, ?_⟩⟩
    rintro (h | ⟨k', h0, h15, h⟩)
    · exact nomatch h
    · exact Event.keyDown.inj h ▸ ⟨h0, h15⟩

/-- Settles O51: a program that fits wraps nowhere, so its bytes lie where they were written. -/
theorem loadProgramCopiesOrFails : Obligations.LoadProgramCopiesOrFails := by
  intro bytes s hwf
  refine ⟨fun hlarge => loadProgram_of_tooLarge hlarge s, fun hfits => ?_⟩
  have hwritten := State.readByte_writeBytes hwf progBase bytes (by omega)
  have hframe := onlyChanges_loadProgram bytes s
  rw [loadProgram_of_fits hfits] at hframe ⊢
  refine ⟨rfl, rfl, hframe, fun k b hb => ?_, fun a ha hout => ?_⟩
  · obtain ⟨hk, rfl⟩ := List.getElem?_eq_some_iff.mp hb
    exact (hwritten (0x200 + k)).1 k hk rfl
  · refine (hwritten a).2 fun k hk hwrap => ?_
    simp only [wrapAddr, memSize, progBase] at hwrap
    omega

/-- Settles O52, by induction on the number of ticks. -/
theorem ticksCountDownToZero : Obligations.TicksCountDownToZero := by
  intro s n
  induction n generalizing s with
  | zero => exact ⟨s, rfl, rfl, rfl, OnlyChanges.refl _ s⟩
  | succ n ih =>
    obtain ⟨t, hrun, hdt, hst, hframe⟩ := ih (tickTimers s)
    rw [dt_tickTimers] at hdt
    rw [st_tickTimers] at hst
    exact ⟨t, hrun, by omega, by omega, (onlyChanges_tickTimers s).trans hframe⟩

/-- Settles O53: a valid key sets its latch, and resolves the wait if one is pending. -/
theorem keyDownSetsLatchAndResolvesWait : Obligations.KeyDownSetsLatchAndResolvesWait := by
  refine fun k s => ⟨fun hk => keyDown_of_outside hk s, ?_⟩
  rintro n rfl
  refine ⟨?_, fun j hj => ?_, fun hw => ?_, fun hw => ?_⟩
  · rw [key_keyDown_toNat, if_pos rfl]
  · rw [key_keyDown_toNat, if_neg hj]
  · rw [keyDown_toNat_of_not_pending hw]
    exact onlyChanges_setKey s n true
  · have hframe := onlyChanges_keyDown n.toNat s
    have hadv := advanced_resolveWait (s.setKey n true) n
    rw [keyDown_toNat_of_pending hw] at hframe ⊢
    rw [State.setKey_params] at hadv
    refine ⟨writesReg_resolveWait (s.setKey n true) n, rfl, fun hp => ?_, fun hp => ?_, hframe⟩
    · rwa [hp] at hadv
    · rwa [hp] at hadv

/-- Settles O54: a valid key clears its latch, which is no part of the wait. -/
theorem keyUpClearsLatchOnly : Obligations.KeyUpClearsLatchOnly := by
  refine fun k s => ⟨fun hk => keyUp_of_outside hk s, ?_⟩
  rintro n rfl
  rw [keyUp_toNat]
  refine ⟨?_, fun j hj => ?_, onlyChanges_setKey s n false⟩
  · rw [State.key_setKey, if_pos rfl]
  · rw [State.key_setKey, if_neg hj]

/-- Settles O55: the framebuffer lists the pixels by their row-major index. -/
theorem framebufferIsRowMajor : Obligations.FramebufferIsRowMajor := by
  intro s
  rw [framebuffer_eq_map_range]
  refine ⟨by simp, fun y x => ?_⟩
  have hidx : 64 * y.val + x.val < 2048 := by omega
  rw [List.getElem?_map, List.getElem?_range hidx, Option.map_some, pixelAt_rowMajor]
  rfl

/-- Settles O56: the hash folds over the framebuffer, and over zeros it only multiplies. -/
theorem displayHashIsFnvFold : Obligations.DisplayHashIsFnvFold :=
  ⟨displayHash_toNat, fun _ => displayHash_of_blank⟩

/-- Settles O57: the top of the stack is what a pop would answer. -/
theorem snapshotReportsState : Obligations.SnapshotReportsState := by
  refine fun s => ⟨rfl, rfl, fun _ => rfl, rfl, rfl, rfl, stackTop_of_empty, fun k hk => ?_, rfl⟩
  refine (stackTop_of_pos (s := s) (by omega)).trans ?_
  simp only [hk, Nat.add_sub_cancel]

end Sys2Proof.Proofs
end

section
/-! SUPPORT. The one word of an instruction (R74), a step that changes nothing, and the control-flow instructions (41_control_flow.md)
by their operands: the stack's by the cell they reach, the jumps by their target. -/

namespace Sys2Proof.Safety

open Sys2Proof.Machine

/-! The word of an instruction, as a number -/

/-- A well-formed instruction is encoded by its own word alone (R74). -/
theorem encodedAs_of_encode_toNat {i : Instr} {k : Nat} (hwf : i.WellFormed = true) (hk : (encode i).toNat = k) :
    EncodedAs i k := by
  intro w
  constructor
  · intro hw
    rw [← (wellFormed_and_encode_of_decodeWord hw).2, hk]
  · intro hw
    rw [← BitVec.eq_of_toNat_eq (hk.trans hw.symm)]
    exact decodeWord_encode hwf

/-! Fixed points of `step` -/

/-- A run whose first step goes on is that step and then the rest. -/
theorem run_succ_of_step {M : Host.Core} {s t : M.State} (h : M.step s = .next t) (k : Nat) :
    M.run (k + 1) s = M.run k t := by
  rw [Host.Core.run, h]

/-- A state that `step` leaves unchanged is left unchanged by every number of steps. -/
theorem run_of_step_self {s : State} (h : step s = .next s) (k : Nat) : core.run k s = .next s := by
  induction k with
  | zero => rfl
  | succ k ih => exact (run_succ_of_step (M := core) h k).trans ih

/-! The stack instructions, by the cell they reach (R17) -/

theorem exec_call_of_sp (nnn : Addr) {s : State} {k : Fin 16} (h : s.sp.val = k.val) : exec (.call nnn) s =
    .next (((s.setCell k s.returnAddress).setSp k.succ).setPc nnn.toNat) := by
  have hroom : s.sp.val < 16 := h ▸ k.isLt
  obtain rfl : k = ⟨s.sp.val, hroom⟩ := Fin.ext h.symm
  exact exec_call_of_lt nnn hroom

theorem exec_ret_of_sp (x : Nibble) {s : State} {k : Fin 16} (h : s.sp.val = k.val + 1) : exec (.ret x) s =
    .next ((s.setSp k.castSucc).setPc (s.stack[k.val]).toNat) := by
  have htop : s.sp.val - 1 < 16 := by omega
  obtain rfl : k = ⟨s.sp.val - 1, htop⟩ := Fin.ext (by simp [h])
  exact exec_ret_of_pos x (h ▸ Nat.succ_pos _)

/-- The return address is the next instruction's (R103). -/
@[simp] theorem returnAddress_toNat (s : State) : s.returnAddress.toNat = (s.pc.toNat + 2) % 4096 := pcOfNat_toNat _

/-! The jumps -/

/-- An address of 12 bits is its own value of `pc`. -/
theorem pcOfNat_addr_toNat (nnn : Addr) : (pcOfNat nnn.toNat).toNat = nnn.toNat := by
  rw [pcOfNat_toNat, Nat.mod_eq_of_lt nnn.isLt]

/-- Setting `pc` to an address that it already holds changes nothing. -/
theorem setPc_of_pc_eq {s : State} {nnn : Addr} (h : s.pc.toNat = nnn.toNat) : s.setPc nnn.toNat = s := by
  have hpc : pcOfNat nnn.toNat = s.pc := BitVec.eq_of_toNat_eq ((pcOfNat_addr_toNat nnn).trans h.symm)
  rw [State.setPc, hpc]

theorem jumpRegister_of_v0 {s : State} (h : s.quirks.jumpWithOffsetUsesVx0 = false) (nnn : Addr) :
    jumpRegister s nnn = 0#4 :=
  if_neg (ne_true_of_eq_false h)

/-- Under the strap the register is the one the top nibble of nnn names (R109). -/
theorem jumpRegister_of_vx {s : State} (h : s.quirks.jumpWithOffsetUsesVx0 = true) (nnn : Addr) :
    jumpRegister s nnn = BitVec.ofNat 4 (nnn.toNat / 256) := by
  rw [jumpRegister, if_pos h, BitVec.extractLsb', Nat.shiftRight_eq_div_pow]

/-! The skips (R108) -/

/-- An instruction that is a skip on the condition `c` moves `pc` as R108 says and changes nothing else. -/
theorem exists_skipped {i : Instr} {s : State} {c : Bool} {p : Prop} (hi : exec i s = finish s (skipOutcome c))
    (hc : c = true ↔ p) : ∃ t, exec i s = .next t ∧ Skipped p s t ∧ OnlyChanges [.pc] s t :=
  ⟨_, hi, skipped_advance hc s, onlyChanges_advance s _⟩

end Sys2Proof.Safety
end

section
/-! SUPPORT. The statements on control flow (41_control_flow.md), settled. -/

namespace Sys2Proof.Proofs

open Sys2Proof.Machine Sys2Proof.Safety

/-- Settles O22, by whether the stack is empty. -/
theorem retPopsAndJumps : Obligations.RetPopsAndJumps := by
  intro x s
  refine ⟨encodedAs_of_encode_toNat rfl ((formatI_toNat _ _ _).trans (by simp [Nat.add_comm])), ?_⟩
  by_cases hsp : s.sp.val = 0
  · exact ⟨s, exec_ret_of_empty x hsp, OnlyChanges.refl _ s, rfl, fun k hk => by omega, fun _ => rfl⟩
  · obtain ⟨k, hk⟩ : ∃ k : Fin 16, s.sp.val = k.val + 1 := ⟨⟨s.sp.val - 1, by omega⟩, (Nat.sub_one_add_one hsp).symm⟩
    have hexec := exec_ret_of_sp x hk
    refine ⟨_, hexec, (onlyChanges_exec_ret hexec).mono (by simp), rfl, fun j hj => ?_, fun h => absurd h hsp⟩
    obtain rfl : j = k := Fin.ext (by omega)
    exact ⟨rfl, pcOfNat_toNat _⟩

/-- Settles O24, by whether the stack is full. -/
theorem callPushesReturnAddress : Obligations.CallPushesReturnAddress := by
  intro nnn s
  refine ⟨encodedAs_of_encode_toNat rfl (formatA_toNat _ _), ?_⟩
  by_cases hsp : s.sp.val = 16
  · exact ⟨s, exec_call_of_full nnn hsp, OnlyChanges.refl _ s, fun k hk => by omega, fun _ => rfl⟩
  · obtain ⟨k, hk⟩ : ∃ k : Fin 16, s.sp.val = k.val := ⟨⟨s.sp.val, by omega⟩, rfl⟩
    have hexec := exec_call_of_sp nnn hk
    refine ⟨_, hexec, (onlyChanges_exec_call hexec).mono (by simp), fun j hj => ?_, fun h => absurd h hsp⟩
    obtain rfl : j = k := Fin.ext (by omega)
    refine ⟨rfl, pcOfNat_addr_toNat nnn, by simp, fun l hl => ?_⟩
    have hcell : j.val ≠ l.val := fun h => hl (Fin.ext h.symm)
    simp [Vector.getElem_set_ne, hcell]

/-- Settles O28: RET reaches the cell that CALL wrote. -/
theorem callThenRetReturns : Obligations.CallThenRetReturns := by
  intro nnn x s t hroom hcall
  obtain ⟨-, t', hcall', hframe, hpush, -⟩ := callPushesReturnAddress nnn s
  obtain rfl : t = t' := Host.Outcome.next.inj (hcall.symm.trans hcall')
  obtain ⟨hsp, -, hcell, -⟩ := hpush ⟨s.sp.val, hroom⟩ rfl
  obtain ⟨-, u, hret, hframe', -, hpop, -⟩ := retPopsAndJumps x t
  obtain ⟨hsp', hpc⟩ := hpop ⟨s.sp.val, hroom⟩ hsp
  refine ⟨u, hret, ?_, Fin.ext hsp', hframe.trans hframe'⟩
  rw [Advanced, hpc, hcell, Nat.mod_mod]

/-- Settles O30: the step sets `pc` to the value it has, and so does every later one. -/
theorem jumpToItselfIsFixedPoint : Obligations.JumpToItselfIsFixedPoint := by
  intro s w nnn hwait hfetches hw hpc
  have hstep : step s = exec (.jp nnn) s := step_of_fetch_ok hwait ((fetch_of_fetches hfetches).trans hw)
  have hjump : exec (.jp nnn) s = .next s := congrArg Host.Outcome.next (setPc_of_pc_eq hpc)
  exact run_of_step_self (hstep.trans hjump)

/-- Settles O21: the word is well formed because its low byte is neither CLS's nor RET's. -/
theorem sysOnlyAdvances : Obligations.SysOnlyAdvances := by
  intro nnn s
  refine ⟨fun hcls hret => ?_, _, rfl, advanced_advance2 s, onlyChanges_advance s _⟩
  have hwf : (Instr.sys nnn).WellFormed = true := by
    rw [wellFormed_sys_iff, ← BitVec.toNat_ne_iff_ne, ← BitVec.toNat_ne_iff_ne, BitVec.extractLsb'_toNat]
    exact ⟨hcls, hret⟩
  exact encodedAs_of_encode_toNat hwf ((formatA_toNat _ _).trans (Nat.zero_add _))

/-- Settles O23. -/
theorem jpSetsPc : Obligations.JpSetsPc :=
  fun nnn s => ⟨encodedAs_of_encode_toNat rfl (formatA_toNat _ _), _, rfl, pcOfNat_addr_toNat nnn, onlyChanges_setPc s _⟩

/-- Settles O25: both are skips, on the two answers of one comparison. -/
theorem skipOnImmediate : Obligations.SkipOnImmediate :=
  fun _ _ _ => ⟨encodedAs_of_encode_toNat rfl (formatI_toNat _ _ _), encodedAs_of_encode_toNat rfl (formatI_toNat _ _ _),
    exists_skipped rfl beq_iff_eq, exists_skipped rfl bne_iff_ne⟩

/-- Settles O26: both are skips, and the ignored nibble is a field of the instruction. -/
theorem skipOnRegisters : Obligations.SkipOnRegisters :=
  fun _ _ _ _ => ⟨encodedAs_of_encode_toNat rfl (formatR_toNat _ _ _ _),
    encodedAs_of_encode_toNat rfl (formatR_toNat _ _ _ _), exists_skipped rfl beq_iff_eq, exists_skipped rfl bne_iff_ne⟩

/-- Settles O27, by the strap. -/
theorem jumpWithOffsetAddsRegister : Obligations.JumpWithOffsetAddsRegister := by
  intro nnn s
  have hpc : (pcOfNat (nnn.toNat + (s.reg (jumpRegister s nnn)).toNat)).toNat =
      (nnn.toNat + (s.reg (jumpRegister s nnn)).toNat) % 4096 := pcOfNat_toNat _
  refine ⟨encodedAs_of_encode_toNat rfl (formatA_toNat _ _), _, rfl, onlyChanges_setPc s _, fun hq => ?_, fun hq => ?_⟩
  · rw [← jumpRegister_of_v0 hq nnn]
    exact hpc
  · rw [← jumpRegister_of_vx hq nnn]
    exact hpc

end Sys2Proof.Proofs
end

section
/-! SUPPORT. The load, arithmetic, logic, shift and random instructions (42_load_alu_random.md): their words, their results as
numbers, and the one shape of an instruction that writes a register, or a register and then VF, and goes on. -/

namespace Sys2Proof.Safety

open Sys2Proof.Machine

/-! The words of family 8 (R66) -/

/-- An instruction of family 8 is encoded by the word of its operands and its code, and by no other. -/
theorem encodedAs_family8 {i : Instr} {x y n : Nibble} (hwf : i.WellFormed = true) (h : encode i = formatR 0x8#4 x y n) :
    EncodedAs i (0x8000 + n.toNat + 256 * x.toNat + 16 * y.toNat) := by
  refine encodedAs_of_encode_toNat hwf ?_
  rw [h, formatR_toNat, BitVec.toNat_ofNat]
  omega

/-! The results as numbers (R126 to R132) -/

/-- A byte's difference wraps at 256 (R129). -/
theorem byte_sub_toNat (a b : Byte) : (a - b).toNat = (a.toNat + 256 - b.toNat) % 256 := by
  rw [BitVec.toNat_sub]
  omega

theorem byte_shiftRight_one_toNat (b : Byte) : (b >>> 1).toNat = b.toNat / 2 := by
  rw [BitVec.toNat_ushiftRight, Nat.shiftRight_one]

theorem byte_shiftLeft_one_toNat (b : Byte) : (b <<< 1).toNat = b.toNat * 2 % 256 := by
  rw [BitVec.toNat_shiftLeft, Nat.shiftLeft_eq, pow_one]

/-- The bit that leaves at the right is the remainder by 2 (R130). -/
theorem shiftRightFlag_toNat (b : Byte) : (shiftRightFlag b).toNat = b.toNat % 2 := by
  rw [shiftRightFlag, flagByte_toNat, BitVec.getLsbD, Nat.testBit_zero]
  simp only [decide_eq_true_eq]
  split <;> omega

/-- The bit that leaves at the left is the quotient by 128 (R132). -/
theorem shiftLeftFlag_toNat (b : Byte) : (shiftLeftFlag b).toNat = b.toNat / 128 := by
  have hb : b.toNat < 256 := b.isLt
  rw [shiftLeftFlag, flagByte_toNat, BitVec.getLsbD, Nat.testBit_eq_decide_div_mod_eq]
  simp only [decide_eq_true_eq]
  split <;> omega

/-! The random source (R26, R133) -/

theorem randomByte_of_present {s : State} (h : s.rngPresent = true) : s.randomByte = Config.randomByte s.rngDraws :=
  if_pos h

theorem randomByte_of_absent {s : State} (h : s.rngPresent = false) : s.randomByte = 0#8 :=
  if_neg (ne_true_of_eq_false h)

/-! Writing a register and going on -/

/-- An instruction that writes `V[x]` alone and advances. -/
theorem exists_writesReg {i : Instr} {s : State} {x : Nibble} {b : Byte} {nb : Nat}
    (hi : exec i s = finish (s.setReg x b) .advance2) (hb : b.toNat = nb) :
    ∃ t, exec i s = .next t ∧ WritesReg x nb s t ∧ Advanced 2 s t ∧ OnlyChanges [.regs, .pc] s t :=
  ⟨_, hi, writesReg_setReg x hb, advanced_advance2 (s.setReg x b),
    (onlyChanges_setReg s x b).append (onlyChanges_advance _ _)⟩

/-- An instruction that writes `V[x]`, then the flag, and advances (R13). -/
theorem exists_writesRegFlag {i : Instr} {s : State} {x : Nibble} {b f : Byte} {nb nf : Nat}
    (hi : exec i s = finish (s.setRegFlag x b f) .advance2) (hb : b.toNat = nb) (hf : f.toNat = nf) :
    ∃ t, exec i s = .next t ∧ WritesRegFlag x nb nf s t ∧ Advanced 2 s t ∧ OnlyChanges [.regs, .pc] s t :=
  ⟨_, hi, writesRegFlag_setRegFlag x hb hf, advanced_advance2 (s.setRegFlag x b f),
    (onlyChanges_setRegFlag s x b f).append (onlyChanges_advance _ _)⟩

end Sys2Proof.Safety
end

section
/-! SUPPORT. The statements on load, arithmetic, logic, shift and random (42_load_alu_random.md), settled. -/

namespace Sys2Proof.Proofs

open Sys2Proof.Machine Sys2Proof.Safety

/-- Settles O34: each writes a bitwise result and the one flag 0. -/
theorem logicClearsFlag : Obligations.LogicClearsFlag :=
  fun _ _ _ => ⟨encodedAs_family8 (n := 0x1) rfl rfl, encodedAs_family8 (n := 0x2) rfl rfl,
    encodedAs_family8 (n := 0x3) rfl rfl, exists_writesRegFlag rfl (BitVec.toNat_or _ _) rfl,
    exists_writesRegFlag rfl (BitVec.toNat_and _ _) rfl, exists_writesRegFlag rfl (BitVec.toNat_xor _ _) rfl⟩

/-- Settles O35. -/
theorem addSetsCarry : Obligations.AddSetsCarry :=
  fun _ _ _ => ⟨encodedAs_family8 (n := 0x4) rfl rfl,
    exists_writesRegFlag rfl (BitVec.toNat_add _ _) (carryFlag_toNat _ _)⟩

/-- Settles O36: SUBN is SUB with the operands exchanged. -/
theorem subtractSetsNoBorrow : Obligations.SubtractSetsNoBorrow :=
  fun _ _ _ => ⟨encodedAs_family8 (n := 0x5) rfl rfl, encodedAs_family8 (n := 0x7) rfl rfl,
    exists_writesRegFlag rfl (byte_sub_toNat _ _) (noBorrowFlag_toNat _ _),
    exists_writesRegFlag rfl (byte_sub_toNat _ _) (noBorrowFlag_toNat _ _)⟩

/-- Settles O37: the premise names the strap's source, of which both shifts are a quotient and a remainder. -/
theorem shiftSetsShiftedOutBit : Obligations.ShiftSetsShiftedOutBit := by
  intro x y s src hsrc
  obtain rfl : src = shiftSource s x y := hsrc
  exact ⟨encodedAs_family8 (n := 0x6) rfl rfl, encodedAs_family8 (n := 0xE) rfl rfl,
    exists_writesRegFlag rfl (byte_shiftRight_one_toNat _) (shiftRightFlag_toNat _),
    exists_writesRegFlag rfl (byte_shiftLeft_one_toNat _) (shiftLeftFlag_toNat _)⟩

/-- Settles O31. -/
theorem loadImmediate : Obligations.LoadImmediate :=
  fun _ _ _ => ⟨encodedAs_of_encode_toNat rfl (formatI_toNat _ _ _), exists_writesReg rfl rfl⟩

/-- Settles O32. -/
theorem addImmediateWrapsWithoutFlag : Obligations.AddImmediateWrapsWithoutFlag :=
  fun _ _ _ => ⟨encodedAs_of_encode_toNat rfl (formatI_toNat _ _ _), exists_writesReg rfl (BitVec.toNat_add _ _)⟩

/-- Settles O33, by the parameter `HAS_8XY0`. -/
theorem copyRegister : Obligations.CopyRegister := by
  refine fun x y s => ⟨encodedAs_family8 (n := 0x0) rfl rfl, ?_⟩
  cases hp : s.params.has8xy0 with
  | true =>
    obtain ⟨t, hexec, hreg, hpc, hframe⟩ := exists_writesReg (exec_ldReg_of_has8xy0 x y hp) rfl
    exact ⟨t, hexec, hpc, fun _ => ⟨hreg, hframe⟩, fun h => absurd h Bool.false_ne_true.symm⟩
  | false =>
    exact ⟨_, exec_ldReg_of_not_has8xy0 x y hp, advanced_advance2 s, fun h => absurd h Bool.false_ne_true,
      fun _ => onlyChanges_advance s _⟩

/-- Settles O38, by whether there is a source. -/
theorem randomIsOneMaskedDraw : Obligations.RandomIsOneMaskedDraw := by
  intro x kk s
  have hwrites {m : Nat} (h : (s.randomByte &&& kk).toNat = m) :
      WritesReg x m s (s.countDraw.setReg x (s.randomByte &&& kk)) := writesReg_setReg (s := s.countDraw) x h
  have hexec : exec (.rnd x kk) s = finish (s.countDraw.setReg x (s.randomByte &&& kk)) .advance2 := rfl
  refine ⟨encodedAs_of_encode_toNat rfl (formatI_toNat _ _ _), _, hexec, advanced_advance2 (s.countDraw.setReg x _),
    (onlyChanges_exec hexec).mono (by simp [writtenParts]), fun hp => ⟨hwrites ?_, if_pos hp⟩,
    fun hp => ⟨hwrites ?_, if_neg (ne_true_of_eq_false hp)⟩⟩
  · rw [randomByte_of_present hp, BitVec.toNat_and]
  · rw [randomByte_of_absent hp, BitVec.zero_and, BitVec.toNat_zero]

end Sys2Proof.Proofs
end

section
/-! SUPPORT. The index-register and memory instructions (43_index_memory.md): their words, their operands as numbers, how each
goes on, and what the stores leave in memory. -/

namespace Sys2Proof.Safety

open Sys2Proof.Machine

/-! The words of family F (R68) -/

/-- An instruction of family F is encoded by the word of its operand and its code, and by no other. -/
theorem encodedAs_familyF {i : Instr} {x : Nibble} {kk : Byte} (hwf : i.WellFormed = true)
    (h : encode i = formatI 0xF#4 x kk) : EncodedAs i (0xF000 + kk.toNat + 256 * x.toNat) := by
  refine encodedAs_of_encode_toNat hwf ?_
  rw [h, formatI_toNat, BitVec.toNat_ofNat]
  omega

/-! Going on -/

/-- An effect that keeps `pc`, followed by the advance of `finish` (R82). -/
theorem advanced_of_finish {ps : List Part} {s u t : State} (h : OnlyChanges ps s u) (hpc : Part.pc ∉ ps)
    (e : finish u .advance2 = .next t) : Advanced 2 s t := by
  have hsame : u.pc = s.pc := h.same hpc
  rw [finish_eq_next e, Advanced, ← hsame]
  exact advanced_advance2 u

/-- An instruction that writes `I` alone and advances. -/
theorem exists_writesIndex {i : Instr} {s : State} {w : Word} {n : Nat} (hi : exec i s = finish (s.setI w) .advance2)
    (hw : w.toNat = n) :
    ∃ t, exec i s = .next t ∧ t.i.toNat = n ∧ Advanced 2 s t ∧ OnlyChanges [.index, .pc] s t :=
  ⟨_, hi, hw, advanced_advance2 (s.setI w), (onlyChanges_setI s w).append (onlyChanges_advance _ _)⟩

/-! The operands as numbers (R141, R143, R147) -/

theorem word_add_byte_toNat (w : Word) (b : Byte) : (w + b.setWidth 16).toNat = (w.toNat + b.toNat) % 65536 := by
  rw [BitVec.toNat_add, BitVec.toNat_setWidth_of_le (by decide)]

theorem hundreds_toNat (b : Byte) : (hundreds b).toNat = b.toNat / 100 := by
  rw [hundreds, BitVec.toNat_ofNat]
  omega

theorem tens_toNat (b : Byte) : (tens b).toNat = b.toNat / 10 % 10 := by
  rw [tens, BitVec.toNat_ofNat]
  omega

theorem ones_toNat (b : Byte) : (ones b).toNat = b.toNat % 10 := by
  rw [ones, BitVec.toNat_ofNat]
  omega

theorem indexAfterBlock_toNat_of_increment {s : State} (h : s.quirks.memOpsIncrementI = true) (x : Nibble) :
    (indexAfterBlock s x).toNat = (s.i.toNat + x.toNat + 1) % 65536 := by
  rw [indexAfterBlock, if_pos h, BitVec.toNat_ofNat]

/-- `I` after a block move, by the strap (R144, R145, R147). -/
theorem index_of_exec_block_by_strap {i : Instr} {s t : State} {x : Nibble} (hi : i = .ldMemVx x ∨ i = .ldVxMem x)
    (e : exec i s = .next t) :
    (s.quirks.memOpsIncrementI = true → t.i.toNat = (s.i.toNat + x.toNat + 1) % 65536) ∧
    (s.quirks.memOpsIncrementI = false → t.i = s.i) := by
  rw [index_of_exec_block hi e]
  exact ⟨fun h => indexAfterBlock_toNat_of_increment h x, fun h => indexAfterBlock_of_not_increment h x⟩

/-! Memory after the stores, and the wrap of an address (R44, R146) -/

theorem readByte_mod (s : State) (a : Nat) : s.readByte (a % 4096) = s.readByte a :=
  congrArg (memGet s.params.font s.mem) (Nat.mod_mod a 4096)

/-- The digits LD B, Vx writes, in the order of their addresses (R143). -/
def digits (b : Byte) : List Byte := [hundreds b, tens b, ones b]

theorem exec_ldBVx_eq_writeBytes (x : Nibble) (s : State) :
    exec (.ldBVx x) s = finish (s.writeBytes s.i.toNat (digits (s.reg x))) .advance2 := rfl

/-- After LD B, Vx the three addresses from `I` on read as the digits, and every other one as before (R44, R143). -/
theorem readByte_of_exec_ldBVx {x : Nibble} {s t : State} (hwf : s.memWf = true) (e : exec (.ldBVx x) s = .next t)
    (c : Nat) :
    (∀ (k : Nat) (hk : k < 3), wrapAddr c = wrapAddr (s.i.toNat + k) → t.readByte c = (digits (s.reg x))[k]) ∧
    ((∀ k : Nat, k < 3 → wrapAddr c ≠ wrapAddr (s.i.toNat + k)) → t.readByte c = s.readByte c) := by
  rw [exec_ldBVx_eq_writeBytes] at e
  rw [finish_eq_next e, State.advance_readByte]
  exact State.readByte_writeBytes hwf s.i.toNat (digits (s.reg x)) (by simp [digits]) c

/-- After LD [I], Vx an address that wraps to none of the block's reads as before (R44, R144). -/
theorem readByte_of_exec_ldMemVx_outside {x : Nibble} {s t : State} (hwf : s.memWf = true)
    (e : exec (.ldMemVx x) s = .next t) {c : Nat}
    (hc : ∀ k : Nat, k ≤ x.toNat → wrapAddr c ≠ wrapAddr (s.i.toNat + k)) : t.readByte c = s.readByte c := by
  obtain ⟨-, hkept⟩ := State.readByte_storeRegs hwf (indexAddr s 0) (x.toNat + 1) x.isLt c
  rw [finish_eq_next e, State.advance_readByte, State.setI_readByte]
  exact hkept fun k hk => hc k (Nat.le_of_lt_succ hk)

end Sys2Proof.Safety
end

section
/-! SUPPORT. The statements on the index register and memory (43_index_memory.md), settled. -/

namespace Sys2Proof.Proofs

open Sys2Proof.Machine Sys2Proof.Safety

/-- Settles O39: each writes `I` and goes on. -/
theorem indexRegisterForms : Obligations.IndexRegisterForms :=
  ⟨fun _ _ => ⟨encodedAs_of_encode_toNat rfl (formatA_toNat _ _),
      exists_writesIndex rfl (BitVec.toNat_setWidth_of_le (by decide))⟩,
    fun _ _ => ⟨encodedAs_familyF (kk := 0x1E) rfl rfl, encodedAs_familyF (kk := 0x29) rfl rfl,
      exists_writesIndex rfl (word_add_byte_toNat _ _), exists_writesIndex rfl (glyphAddr_toNat _)⟩⟩

/-- Settles O40: the digits are one sequence of three bytes, written from `I` on. -/
theorem bcdStoresDigits : Obligations.BcdStoresDigits := by
  intro x s hwf
  obtain ⟨t, hexec⟩ : ∃ t, exec (.ldBVx x) s = .next t := ⟨_, rfl⟩
  have hpc : Advanced 2 s t :=
    advanced_of_finish (onlyChanges_writeBytes s _ _) (by simp) ((exec_ldBVx_eq_writeBytes x s).symm.trans hexec)
  have hbytes := readByte_of_exec_ldBVx hwf hexec
  exact ⟨encodedAs_familyF (kk := 0x33) rfl rfl, t, hexec, hpc, onlyChanges_exec hexec,
    (congrArg BitVec.toNat ((hbytes _).1 0 (by decide) rfl)).trans (hundreds_toNat _),
    (congrArg BitVec.toNat ((hbytes _).1 1 (by decide) rfl)).trans (tens_toNat _),
    (congrArg BitVec.toNat ((hbytes _).1 2 (by decide) rfl)).trans (ones_toNat _), fun a => (hbytes a).2⟩

/-- Settles O41: the block as stored and as left alone, and `I` by the strap. -/
theorem blockStoreWritesRegisters : Obligations.BlockStoreWritesRegisters := by
  intro x s hwf
  obtain ⟨t, hexec⟩ : ∃ t, exec (.ldMemVx x) s = .next t := ⟨_, rfl⟩
  have hpc : Advanced 2 s t :=
    advanced_of_finish ((onlyChanges_storeRegs s _ _).append (onlyChanges_setI _ _)) (by simp) hexec
  exact ⟨encodedAs_familyF (kk := 0x55) rfl rfl, t, hexec, hpc, onlyChanges_exec hexec,
    fun _ hr => readByte_of_exec_ldMemVx hwf hexec hr rfl, fun _ ha => readByte_of_exec_ldMemVx_outside hwf hexec ha,
    index_of_exec_block_by_strap (.inl rfl) hexec⟩

/-- Settles O42: a register is in the block or above it, and `I` goes by the strap. -/
theorem blockLoadReadsMemory : Obligations.BlockLoadReadsMemory := by
  intro x s
  obtain ⟨t, hexec⟩ : ∃ t, exec (.ldVxMem x) s = .next t := ⟨_, rfl⟩
  have hpc : Advanced 2 s t :=
    advanced_of_finish ((onlyChanges_loadRegs s _ _).append (onlyChanges_setI _ _)) (by simp) hexec
  refine ⟨encodedAs_familyF (kk := 0x65) rfl rfl, t, hexec, hpc, onlyChanges_exec hexec, fun r hr => ?_, fun r hr => ?_,
    index_of_exec_block_by_strap (.inr rfl) hexec⟩
  · rw [reg_of_exec_ldVxMem hexec, if_pos (Nat.lt_succ_of_le hr), readByte_mod]
  · exact reg_of_exec hexec (Nat.not_le_of_lt hr)

end Sys2Proof.Proofs
end

section
/-! SUPPORT. The drawing loop (R151) said once: a draw flips a set of pixels and raises the collision if one of them was lit; the
rows of a sprite, drawn one after another, flip the pixels the sprite lights. -/

namespace Sys2Proof.Safety

open Sys2Proof.Machine

/-! A draw that meets a set of pixels -/

/-- From the canvas `c` to `c'` exactly the pixels of `P` were met by a lit sprite bit (R151). -/
structure Draws (P : Fin 32 → Fin 64 → Prop) (c c' : Canvas) : Prop where
  /-- A pixel that was met is flipped. -/
  flipped : ∀ py px, P py px → pixelOf c'.disp py px = !pixelOf c.disp py px
  /-- Every other pixel keeps its value. -/
  kept : ∀ py px, ¬P py px → pixelOf c'.disp py px = pixelOf c.disp py px
  /-- The collision is raised if a pixel that was met was lit, and is never lowered. -/
  hit : c'.hit = true ↔ c.hit = true ∨ ∃ py px, P py px ∧ pixelOf c.disp py px = true

theorem Draws.of_empty {P : Fin 32 → Fin 64 → Prop} (hP : ∀ py px, ¬P py px) (c : Canvas) : Draws P c c :=
  ⟨fun py px h => absurd h (hP py px), fun _ _ _ => rfl, by simp [hP]⟩

/-- Two draws that share no pixel, one after the other. -/
theorem Draws.trans {P Q : Fin 32 → Fin 64 → Prop} {c c' c'' : Canvas} (h : Draws P c c') (h' : Draws Q c' c'')
    (hdisj : ∀ py px, P py px → ¬Q py px) : Draws (fun py px => P py px ∨ Q py px) c c'' := by
  have hunmet {py px} (hq : Q py px) : pixelOf c'.disp py px = pixelOf c.disp py px :=
    h.kept py px fun hp => hdisj py px hp hq
  refine ⟨fun py px hpq => ?_, fun py px hn => ?_, ?_⟩
  · obtain hp | hq := hpq
    · rw [h'.kept py px (hdisj py px hp), h.flipped py px hp]
    · rw [h'.flipped py px hq, hunmet hq]
  · rw [h'.kept py px fun hq => hn (.inr hq), h.kept py px fun hp => hn (.inl hp)]
  · have hlit (py px) : (Q py px ∧ pixelOf c'.disp py px = true) ↔ (Q py px ∧ pixelOf c.disp py px = true) :=
      and_congr_right fun hq => by rw [hunmet hq]
    simp only [h'.hit, h.hit, hlit, or_and_right, exists_or, or_assoc]

/-! The rows of a sprite -/

/-- A lit bit of row `row` of the sprite lands on the pixel (R152). -/
def SpriteRowLit (s : State) (x y : Nibble) (row : Nat) (py : Fin 32) (px : Fin 64) : Prop :=
  ∃ col : Nat, col < 8 ∧ py.val = (s.reg y).toNat % 32 + row ∧ px.val = ((s.reg x).toNat % 64 + col) % 64 ∧
    (s.readByte (s.i.toNat + row)).getLsbD (7 - col) = true

theorem SpriteRowLit.row_eq {s : State} {x y : Nibble} {row : Nat} {py : Fin 32} {px : Fin 64}
    (h : SpriteRowLit s x y row py px) : py.val = (s.reg y).toNat % 32 + row := by
  obtain ⟨_, _, hy, _⟩ := h
  exact hy

theorem spriteLit_iff_exists_row (s : State) (x y n : Nibble) (py : Fin 32) (px : Fin 64) :
    SpriteLit s x y n py px ↔ ∃ row < n.toNat, SpriteRowLit s x y row py px := by
  simp only [SpriteLit, SpriteRowLit, exists_and_left]

/-- The lit bits of a row that fits on the display land on that row of it. -/
theorem spriteRowLit_iff (s : State) (x y : Nibble) {row : Nat} (hrow : originRow (s.reg y) + row < 32) (py : Fin 32)
    (px : Fin 64) : SpriteRowLit s x y row py px ↔ py = ⟨originRow (s.reg y) + row, hrow⟩ ∧ ∃ col, col < 8 ∧
      px.val = (originColumn (s.reg x) + col) % 64 ∧ (s.readByte (indexAddr s row)).getLsbD (7 - col) = true := by
  constructor
  · rintro ⟨col, hcol, hy, hx, hbit⟩
    exact ⟨Fin.ext hy, col, hcol, hx, hbit⟩
  · rintro ⟨rfl, col, hcol, hx, hbit⟩
    exact ⟨col, hcol, rfl, hx, hbit⟩

/-- A row that fits on the display draws its lit bits. -/
theorem draws_drawColumns (c : Canvas) (s : State) (x y : Nibble) {row : Nat} (hrow : originRow (s.reg y) + row < 32) :
    Draws (SpriteRowLit s x y row) c
      (c.drawColumns (s.readByte (indexAddr s row)) (originColumn (s.reg x)) ⟨originRow (s.reg y) + row, hrow⟩ 8) := by
  obtain ⟨hpixel, hhit⟩ := c.drawColumns_spec (s.readByte (indexAddr s row)) (originColumn (s.reg x))
    ⟨originRow (s.reg y) + row, hrow⟩ 8 (Nat.le_refl 8)
  have hmet := spriteRowLit_iff s x y hrow
  refine ⟨fun py px h => ?_, fun py px h => ?_, hhit.trans (or_congr_right ?_)⟩
  · rw [hpixel, decide_eq_true ((hmet py px).mp h), Bool.xor_true]
  · rw [hpixel, decide_eq_false (mt (hmet py px).mpr h), Bool.xor_false]
  · constructor
    · rintro ⟨col, px, hcol, hx, hbit, hlit⟩
      exact ⟨_, px, (hmet _ px).mpr ⟨rfl, col, hcol, hx, hbit⟩, hlit⟩
    · rintro ⟨py, px, hrowlit, hlit⟩
      obtain ⟨rfl, col, hcol, hx, hbit⟩ := (hmet py px).mp hrowlit
      exact ⟨col, px, hcol, hx, hbit, hlit⟩

/-- The first `m` rows draw their lit bits: rows of one sprite share no pixel, and a row below the display lights none. -/
theorem draws_drawRows (c : Canvas) (s : State) (x y : Nibble) (m : Nat) :
    Draws (fun py px => ∃ row < m, SpriteRowLit s x y row py px) c
      (c.drawRows s (originColumn (s.reg x)) (originRow (s.reg y)) m) := by
  induction m with
  | zero => exact Draws.of_empty (by simp) c
  | succ m ih =>
    simp only [Nat.exists_lt_succ_right]
    refine ih.trans ?_ fun py px ⟨row, hrow, hlit⟩ hlit' => ?_
    · rw [Canvas.drawRows]
      split
      · exact draws_drawColumns _ s x y _
      · next hclip =>
        refine Draws.of_empty (fun py px hlit => hclip ?_) _
        rw [originRow, ← hlit.row_eq]
        exact py.isLt
    · have hsame : (s.reg y).toNat % 32 + row = (s.reg y).toNat % 32 + m := hlit.row_eq.symm.trans hlit'.row_eq
      omega

/-- The drawing loop meets the pixels of `SpriteLit`, from a collision not yet raised (R151). -/
theorem draws_drawSprite (s : State) (x y n : Nibble) :
    Draws (SpriteLit s x y n) { disp := s.disp, hit := false } (drawSprite s x y n) := by
  have hset : SpriteLit s x y n = fun py px => ∃ row < n.toNat, SpriteRowLit s x y row py px :=
    funext₂ fun py px => propext (spriteLit_iff_exists_row s x y n py px)
  rw [hset]
  exact draws_drawRows _ s x y n.toNat

/-! The flag and the display after DRW -/

theorem flagByte_eq_one_iff (c : Bool) : flagByte c = 1#8 ↔ c = true := by cases c <;> decide

theorem flagByte_eq_zero_iff (c : Bool) : flagByte c = 0#8 ↔ c = false := by cases c <;> decide

theorem exec_drw_eq_finish (x y n : Nibble) (s : State) : exec (.drw x y n) s =
    finish ((s.setDisp (drawSprite s x y n).disp).setReg vf (flagByte (drawSprite s x y n).hit)) .advance2 := rfl

theorem disp_of_exec_drw {x y n : Nibble} {s t : State} (e : exec (.drw x y n) s = .next t) :
    t.disp = (drawSprite s x y n).disp := by
  rw [finish_eq_next e, State.advance_disp, State.setReg_disp, State.setDisp_disp]

theorem flag_of_exec_drw {x y n : Nibble} {s t : State} (e : exec (.drw x y n) s = .next t) :
    t.reg vf = flagByte (drawSprite s x y n).hit := by
  rw [exec_drw_eq_finish] at e
  rw [finish_eq_next e, State.advance_reg, State.reg_setReg_same]

theorem pixel_of_exec_drw_of_lit {x y n : Nibble} {s t : State} (e : exec (.drw x y n) s = .next t) {py : Fin 32}
    {px : Fin 64} (h : SpriteLit s x y n py px) : t.pixel py px = !s.pixel py px := by
  rw [State.pixel, disp_of_exec_drw e]
  exact (draws_drawSprite s x y n).flipped py px h

theorem pixel_of_exec_drw_of_not_lit {x y n : Nibble} {s t : State} (e : exec (.drw x y n) s = .next t) {py : Fin 32}
    {px : Fin 64} (h : ¬SpriteLit s x y n py px) : t.pixel py px = s.pixel py px := by
  rw [State.pixel, disp_of_exec_drw e]
  exact (draws_drawSprite s x y n).kept py px h

/-- A collision: a lit sprite bit lands on a lit pixel (R151). -/
theorem drawSprite_hit_iff (s : State) (x y n : Nibble) :
    (drawSprite s x y n).hit = true ↔ ∃ py px, SpriteLit s x y n py px ∧ s.pixel py px = true :=
  (draws_drawSprite s x y n).hit.trans (or_iff_right Bool.false_ne_true)

theorem flag_eq_one_of_exec_drw_iff {x y n : Nibble} {s t : State} (e : exec (.drw x y n) s = .next t) :
    t.reg vf = 1#8 ↔ ∃ py px, SpriteLit s x y n py px ∧ s.pixel py px = true := by
  rw [flag_of_exec_drw e, flagByte_eq_one_iff, drawSprite_hit_iff]

theorem flag_eq_zero_of_exec_drw_iff {x y n : Nibble} {s t : State} (e : exec (.drw x y n) s = .next t) :
    t.reg vf = 0#8 ↔ ¬∃ py px, SpriteLit s x y n py px ∧ s.pixel py px = true := by
  rw [flag_of_exec_drw e, flagByte_eq_zero_iff, ← drawSprite_hit_iff, Bool.not_eq_true]

/-- After a draw that keeps its origin registers the same sprite covers the same pixels. -/
theorem spriteLit_after_exec_drw {x y n : Nibble} {s t : State} (e : exec (.drw x y n) s = .next t)
    (hx : t.reg x = s.reg x) (hy : t.reg y = s.reg y) (py : Fin 32) (px : Fin 64) :
    SpriteLit t x y n py px ↔ SpriteLit s x y n py px := by
  have hi : t.i = s.i := (onlyChanges_exec e).same (p := .index) (by simp [writtenParts])
  have hmem : ∀ a, t.readByte a = s.readByte a := (onlyChanges_exec e).same (p := .mem) (by simp [writtenParts])
  simp only [SpriteLit, hx, hy, hi, hmem]

end Sys2Proof.Safety
end

section
/-! SUPPORT. The statements on the display (44_display.md), settled. -/

namespace Sys2Proof.Proofs

open Sys2Proof.Machine Sys2Proof.Safety

/-- Settles O45: the drawing loop meets the pixels of `SpriteLit` and no other. -/
theorem drawFlipsExactlySpritePixels : Obligations.DrawFlipsExactlySpritePixels := by
  intro x y n s
  obtain ⟨t, hexec⟩ : ∃ t, exec (.drw x y n) s = .next t := ⟨_, rfl⟩
  have hpc : Advanced 2 s t := advanced_of_finish ((onlyChanges_setDisp s _).append (onlyChanges_setReg _ vf _))
    (by simp) hexec
  exact ⟨encodedAs_of_encode_toNat rfl (formatR_toNat _ _ _ _), t, hexec, hpc,
    (onlyChanges_exec hexec).mono (by simp [writtenParts]), fun _ hr => reg_of_exec hexec hr,
    fun _ _ => pixel_of_exec_drw_of_lit hexec, fun _ _ => pixel_of_exec_drw_of_not_lit hexec,
    (flag_eq_one_of_exec_drw_iff hexec).mpr, (flag_eq_zero_of_exec_drw_iff hexec).mpr⟩

/-- Settles O46: the second draw meets the same pixels, each flipped by the first. -/
theorem drawTwiceRestoresDisplay : Obligations.DrawTwiceRestoresDisplay := by
  intro x y n s t hfirst hx hy
  obtain ⟨u, hsecond⟩ : ∃ u, exec (.drw x y n) t = .next u := ⟨_, rfl⟩
  have hlit := spriteLit_after_exec_drw hfirst hx hy
  refine ⟨u, hsecond, display_ext fun py px => ?_, ?_⟩
  · change u.pixel py px = s.pixel py px
    by_cases h : SpriteLit s x y n py px
    · rw [pixel_of_exec_drw_of_lit hsecond ((hlit py px).mpr h), pixel_of_exec_drw_of_lit hfirst h, Bool.not_not]
    · rw [pixel_of_exec_drw_of_not_lit hsecond (mt (hlit py px).mp h), pixel_of_exec_drw_of_not_lit hfirst h]
  · rw [flag_eq_one_of_exec_drw_iff hsecond]
    refine exists₂_congr fun py px => ?_
    rw [hlit py px]
    exact and_congr_right fun h => by rw [pixel_of_exec_drw_of_lit hfirst h, Bool.not_eq_true']

/-- Settles O44: a display without a lit pixel has the hash of the blank one. -/
theorem clsClearsDisplay : Obligations.ClsClearsDisplay := by
  intro x s
  have hblank : ∀ py px, ((s.setDisp Display.clear).advance .advance2).pixel py px = false := pixelOf_clear
  exact ⟨encodedAs_of_encode_toNat rfl ((formatI_toNat _ _ _).trans (by simp [Nat.add_comm])), _, rfl,
    advanced_advance2 (s.setDisp Display.clear), (onlyChanges_setDisp s _).append (onlyChanges_advance _ _), hblank,
    displayHash_of_blank hblank⟩

end Sys2Proof.Proofs
end

section
/-! SUPPORT. The keypad and timer instructions (45_keys_timers.md): the key a register selects, and an advance by nothing. -/

namespace Sys2Proof.Safety

open Sys2Proof.Machine

/-- The key a register value selects is the one whose number is the value's low nibble (R160, R161). -/
theorem keyOf_eq_of_toNat {b : Byte} {k : Nibble} (h : k.toNat = b.toNat % 16) : keyOf b = k := by
  refine BitVec.eq_of_toNat_eq ?_
  rw [h, keyOf, BitVec.extractLsb'_toNat, Nat.shiftRight_zero]

/-- From an address in 0..0xFFF an advance by 0 leaves `pc` (R14, R25). -/
theorem pc_eq_of_advanced_zero {s t : State} (hs : StateInv s) (h : Advanced 0 s t) : t.pc = s.pc := by
  obtain ⟨hpc, -, -⟩ := hs
  exact BitVec.eq_of_toNat_eq (h.trans (Nat.mod_eq_of_lt hpc))

end Sys2Proof.Safety
end

section
/-! SUPPORT. The statements on the keypad and the timers (45_keys_timers.md), settled. -/

namespace Sys2Proof.Proofs

open Sys2Proof.Machine Sys2Proof.Safety

/-- Settles O47: both are skips, on the two answers of one latch. -/
theorem skipOnKey : Obligations.SkipOnKey := by
  intro x s k hk
  obtain rfl : keyOf (s.reg x) = k := keyOf_eq_of_toNat hk
  exact ⟨encodedAs_of_encode_toNat rfl ((formatI_toNat _ _ _).trans (Nat.add_right_comm _ _ _)),
    encodedAs_of_encode_toNat rfl ((formatI_toNat _ _ _).trans (Nat.add_right_comm _ _ _)),
    exists_skipped rfl Iff.rfl, exists_skipped rfl (Bool.not_eq_true' _).to_iff⟩

/-- Settles O48: each writes its one destination and goes on. -/
theorem timerCopies : Obligations.TimerCopies :=
  fun x s => ⟨encodedAs_familyF (kk := 0x07) rfl rfl, encodedAs_familyF (kk := 0x15) rfl rfl,
    encodedAs_familyF (kk := 0x18) rfl rfl, exists_writesReg rfl rfl,
    ⟨_, rfl, rfl, advanced_advance2 (s.setDT (s.reg x)), (onlyChanges_setDT s _).append (onlyChanges_advance _ _)⟩,
    ⟨_, rfl, rfl, advanced_advance2 (s.setST (s.reg x)), (onlyChanges_setST s _).append (onlyChanges_advance _ _)⟩⟩

/-- Settles O49: the outcome is `noAdvance`, so the armed wait is the whole effect. -/
theorem waitForKeyArms : Obligations.WaitForKeyArms :=
  fun x s => ⟨encodedAs_familyF (kk := 0x0A) rfl rfl, s.armWait x, rfl, rfl, rfl, onlyChanges_armWait s x⟩

/-- Settles O50: the armed wait stalls every step, and the key resolves it from the `pc` of Fx0A. -/
theorem keyWaitResolvedByKeyDown : Obligations.KeyWaitResolvedByKeyDown := by
  intro x k s t hs hexec
  obtain ⟨-, t', hexec', hpending, rfl, hframe⟩ := waitForKeyArms x s
  obtain rfl : t = t' := Host.Outcome.next.inj (hexec.symm.trans hexec')
  have hpc : t.pc = s.pc := hframe.same (p := .pc) (by simp)
  obtain ⟨-, hparams, -⟩ := hframe.sameConfig
  obtain ⟨-, -, -, hresolve⟩ := (keyDownSetsLatchAndResolvesWait k.toNat t).2 k rfl
  obtain ⟨⟨hreg, -⟩, hended, hzero, htwo, -⟩ := hresolve hpending
  rw [hparams] at hzero htwo
  refine ⟨run_of_step_self (step_of_pending hpending), hreg, hended, fun hp => ?_, fun hp => ?_⟩
  · exact (pc_eq_of_advanced_zero (stateInv_exec hs hexec) (hzero hp)).trans hpc
  · rw [Advanced, ← hpc]
    exact htwo hp

end Sys2Proof.Proofs
end

section
/-! SUPPORT. No outcome but the next state (R170): for every instruction, for `step`, for every event and every run of
them; and the two absorbed stack instructions as fixed points of `step` (R174). -/

namespace Sys2Proof.Safety

open Sys2Proof.Machine

/-- Every instruction ends in a next state: the three whose meaning branches do so in either branch. -/
theorem exists_exec_eq_next (i : Instr) (s : State) : ∃ t, exec i s = .next t := by
  cases i with
  | ret x =>
    rcases Nat.eq_zero_or_pos s.sp.val with hsp | hsp
    · exact ⟨s, exec_ret_of_empty x hsp⟩
    · exact ⟨_, exec_ret_of_pos x hsp⟩
  | call nnn =>
    rcases Nat.lt_or_ge s.sp.val 16 with hsp | hsp
    · exact ⟨_, exec_call_of_lt nnn hsp⟩
    · exact ⟨s, exec_call_of_full nnn (by omega)⟩
  | ldReg x y =>
    cases hp : s.params.has8xy0 with
    | true => exact ⟨_, exec_ldReg_of_has8xy0 x y hp⟩
    | false => exact ⟨_, exec_ldReg_of_not_has8xy0 x y hp⟩
  | cls x | sys nnn | jp nnn | seImm x kk | sneImm x kk | seReg x y n | ldImm x kk | addImm x kk | orReg x y | andReg x y
  | xorReg x y | addReg x y | subReg x y | shrReg x y | subnReg x y | shlReg x y | sneReg x y n | ldI nnn | jpV0 nnn
  | rnd x kk | drw x y n | skp x | sknp x | ldVxDT x | ldVxK x | ldDTVx x | ldSTVx x | addIVx x | ldFVx x | ldBVx x
  | ldMemVx x | ldVxMem x => exact ⟨_, rfl⟩

/-- A step stalls, runs the instruction fetched, or runs the undecoded no-op; each ends in a next state. -/
theorem exists_step_eq_next (s : State) : ∃ t, step s = .next t := by
  cases hw : s.waitPending with
  | true => exact ⟨s, step_of_pending hw⟩
  | false =>
    cases hf : s.fetch with
    | ok i =>
      rw [step_of_fetch_ok hw hf]
      exact exists_exec_eq_next i s
    | error u => exact ⟨_, step_of_fetch_error hw hf⟩

theorem exists_applyEvent_eq_next (e : Event) (s : State) : ∃ t, applyEvent e s = .next t := by
  cases e with
  | step => exact exists_step_eq_next s
  | reset | loadProgram bytes | tickTimers | keyDown k | keyUp k => exact ⟨_, rfl⟩

/-- A run whose first event goes on is that event and then the rest. -/
theorem runEvents_cons_of_next {e : Event} {s t : State} (h : applyEvent e s = .next t) (es : List Event) :
    runEvents (e :: es) s = runEvents es t := by
  rw [runEvents, h]

theorem exists_runEvents_eq_next (es : List Event) (s : State) : ∃ t, runEvents es s = .next t := by
  induction es generalizing s with
  | nil => exact ⟨s, rfl⟩
  | cons e es ih =>
    obtain ⟨u, hu⟩ := exists_applyEvent_eq_next e s
    rw [runEvents_cons_of_next hu]
    exact ih u

/-- CALL on a full stack and RET on an empty one are fixed points of `step` (R174). -/
theorem step_eq_self_of_absorbed {s : State} {w : Word} (hwait : s.waitPending = false) (hfetches : Fetches s w)
    (h : (s.sp.val = 16 ∧ ∃ nnn, decodeWord w = .ok (.call nnn)) ∨ (s.sp.val = 0 ∧ ∃ x, decodeWord w = .ok (.ret x))) :
    step s = .next s := by
  have hfetch : s.fetch = decodeWord w := fetch_of_fetches hfetches
  obtain ⟨hsp, nnn, hw⟩ | ⟨hsp, x, hw⟩ := h
  · exact (step_of_fetch_ok hwait (hfetch.trans hw)).trans (exec_call_of_full nnn hsp)
  · exact (step_of_fetch_ok hwait (hfetch.trans hw)).trans (exec_ret_of_empty x hsp)

end Sys2Proof.Safety
end

section
/-! SUPPORT. The statements on what other machines answer with a fault (60_exceptions.md), settled. -/

namespace Sys2Proof.Proofs

open Sys2Proof.Machine Sys2Proof.Safety

/-- Settles O9, by the induction over a run of events. -/
theorem nothingFaults : Obligations.NothingFaults :=
  fun es s => ⟨exists_step_eq_next s, exists_runEvents_eq_next es s⟩

/-- Settles O29: the absorbed instruction leaves the state it was fetched from, so the next step fetches it again. -/
theorem stackOverflowAndUnderflowSpin : Obligations.StackOverflowAndUnderflowSpin :=
  fun _ _ hwait hfetches habsorbed => run_of_step_self (step_eq_self_of_absorbed hwait hfetches habsorbed)

end Sys2Proof.Proofs
end
